-- ==== Sys2Proof/Word.lean ====
section
/-! DEFINITION. The widths of the core's data (spec/00_scope.md R7).
Every operand-stack entry, memory cell and instruction operand is a 32-bit two's-complement number; the program counter
and every call-stack entry is a 32-bit unsigned record index. -/

namespace Sys2Proof

/-- One byte of the program image or of the console stream. -/
abbrev Byte := BitVec 8

/-- An `i32`: 32 bits, read as a signed number by `BitVec.toInt` (R7, R8). -/
abbrev Word := BitVec 32

/-- A `u32`: a record index, read as an unsigned number by `BitVec.toNat` (R7, R25). -/
abbrev Index := BitVec 32

end Sys2Proof
end

