-- ==== Sys2Proof/Config.lean ====
section
/-! DEFINITION. What an implementation of the core fixes (spec/00_scope.md R6), and the values the spec leaves open. -/

namespace Sys2Proof

/-- `CARRY_READING` (R6, 42_arithmetic.md R140): which reading of the carry rule the ALU uses. -/
inductive CarryReading where
  | signedRange
  | directional
  deriving DecidableEq, Repr

/-- `ROT3_READING` (R6, 41_stack.md R123): which reading of ROT3 the stack datapath uses. -/
inductive Rot3Reading where
  | noOp
  | reverseTop3
  deriving DecidableEq, Repr

/-- The fault kinds (60_exceptions.md R220), a closed set. They stand here because `Config.faultRender` takes one. -/
inductive FaultKind where
  /-- A push to a full operand stack, or a CALL with a full call stack. -/
  | stackOverflow
  /-- Fewer operand-stack entries than the instruction needs, or a RETURN with an empty call stack. -/
  | stackUnderflow
  /-- The fetched opcode is not one of the 29. -/
  | illegalInstruction
  /-- A data address outside `[0, MEM_SIZE)`. -/
  | illegalMemoryAccess
  /-- DIVMOD by 0, or of `-2^31` by `-1` (the spec's own kind, D6 and D7). -/
  | divideError
  deriving DecidableEq, Repr

/-- The parameters of one machine (R6). `W` is fixed at 32 and is the type `Word`. -/
structure Config where
  /-- `N` (`STACK_CAP`), the capacity of the operand stack and of the call stack. -/
  stackCap : Nat
  /-- `MEM_SIZE`, the number of memory cells. -/
  memSize : Nat
  carryReading : CarryReading
  rot3Reading : Rot3Reading
  deriving DecidableEq, Repr

/-- The defaults of R6. Log 3: they are defaults, not fixed properties. -/
def Config.standard : Config where
  stackCap := 1024
  memSize := 16777216
  carryReading := .signedRange
  rot3Reading := .noOp

/-- `DUMP_RENDER` on a non-empty list (R6, D18, U11): OPEN, a free value (log 9). -/
opaque Config.dumpRender : List Word → List Byte

/-- What a host prints before the text `[empty]` of an empty DUMP (D18: the rendering CONTAINS the text; N22): a free
value (log 9). -/
opaque Config.dumpEmptyBefore : List Byte

/-- What a host prints after the text `[empty]` of an empty DUMP (N22: a newline is not to be assumed): a free value
(log 9). -/
opaque Config.dumpEmptyAfter : List Byte

/-- `FAULT_RENDER` (R6, D19, U12): OPEN, a free value (log 9). Its arguments are the report's three parts. -/
opaque Config.faultRender : FaultKind → List Word → List Index → List Byte

/-- The draw behind the process exit code of a rejected load (60_exceptions.md R229, U9): a free value (log 10). -/
opaque Config.loadFailureDraw : Int

end Sys2Proof
end

