-- ==== Sys2Proof/Syntax.lean ====
section
/-! DEFINITION. The instruction record and the 29 instructions (spec/30_encoding.md R70, R72, R74). -/

namespace Sys2Proof

/-- One instruction record as the program store holds it (R70): an opcode field and an operand field. -/
structure Record where
  opcode : Word
  operand : Word
  deriving DecidableEq, Repr

/-- The two formats of R72: `I` reads the operand field, `N` ignores it. -/
inductive Format where
  | I
  | N
  deriving DecidableEq, Repr

/-- The VM instruction set, in the order of R74. A format-`I` instruction carries its operand; a format-`N`
instruction carries nothing, because its operand field is never read (R72, D30). -/
inductive Instr where
  | push (imm : Word)
  | add
  | sub
  | mul
  | divmod
  | dup
  | swap
  | rot3
  | drop
  | printNum
  | printChar
  | dump
  | memSetAbs (addr : Word)
  | memGetAbs (addr : Word)
  | compare
  | jmp (target : Word)
  | jmpIfCarry (target : Word)
  | jmpIfNotCarry (target : Word)
  | jmpIfEqual (target : Word)
  | jmpIfNotEqual (target : Word)
  | jmpIfLess (target : Word)
  | jmpIfLessOrEqual (target : Word)
  | jmpIfGreater (target : Word)
  | jmpIfGreaterOrEqual (target : Word)
  | memSetIndirect
  | memGetIndirect
  | call (target : Word)
  | ret
  | exit
  deriving DecidableEq, Repr

end Sys2Proof
end

