-- ==== Sys2Proof/WellFormed.lean ====
section
/-! DEFINITION. Which terms the spec admits: instructions, records, parameters, loaded programs. -/

namespace Sys2Proof

/-- Every instruction is well formed: an operand may be any `i32` (spec/30_encoding.md R72, R73), and a format-`N`
instruction has none. -/
def Instr.wf : Instr → Bool
  | .push _ | .memSetAbs _ | .memGetAbs _ | .jmp _ | .jmpIfCarry _ | .jmpIfNotCarry _ | .jmpIfEqual _
  | .jmpIfNotEqual _ | .jmpIfLess _ | .jmpIfLessOrEqual _ | .jmpIfGreater _ | .jmpIfGreaterOrEqual _ | .call _ => true
  | .add | .sub | .mul | .divmod | .dup | .swap | .rot3 | .drop | .printNum | .printChar | .dump | .compare
  | .memSetIndirect | .memGetIndirect | .ret | .exit => true

/-- A record is legal when its opcode, read as an `i32`, lies in `[0, 28]` (30_encoding.md R76). -/
def Record.legal (r : Record) : Bool := decide (0 ≤ r.opcode.toInt) && decide (r.opcode.toInt ≤ 28)

/-- The constraints of 00_scope.md R6 on `N` and `MEM_SIZE`. -/
def Config.wf (c : Config) : Bool :=
  decide (1 ≤ c.stackCap) && decide (c.stackCap ≤ 2 ^ 32 - 1) && decide (1 ≤ c.memSize) && decide (c.memSize ≤ 2 ^ 31)

/-- A loaded program: the length `K` is a `u32` (10_state.md R38) and the preload fits the memory (00_scope.md R6). -/
def loadFits (c : Config) (prog : List Record) (image : List Word) : Bool :=
  decide (prog.length ≤ 2 ^ 32 - 1) && decide (image.length ≤ c.memSize)

end Sys2Proof
end

