-- ==== Sys2Proof/Decode.lean ====
section
/-! DEFINITION. The decoder and, after it, the encoder (spec/30_encoding.md R70 to R77; byte order 20_memory.md R54). -/

namespace Sys2Proof

/-- Why bytes are no instruction. -/
inductive DecodeError where
  /-- Fewer than the 8 bytes of a record (R77). -/
  | truncated
  /-- The opcode field is outside `[0, 28]` (R76). -/
  | illegalOpcode (opcode : Word)
  deriving DecidableEq, Repr

/-- Four bytes in file order as one little-endian field: byte 0 is bits 7:0 (20_memory.md R54, D3). -/
def wordOfBytes (b0 b1 b2 b3 : Byte) : Word := b3 ++ b2 ++ b1 ++ b0

/-- The record word `Wd` split into its fields: opcode in bits 31:0, operand in bits 63:32 (R71). -/
def Record.ofWd (wd : BitVec 64) : Record := ⟨wd.extractLsb' 0 32, wd.extractLsb' 32 32⟩

/-- The instruction of a record: all 32 opcode bits are compared (R75), the values are those of R74, and the operand
field never takes part in the choice. `Illegal` of 40_cycle.md R103 is an error by name. -/
def decode (r : Record) : Except DecodeError Instr :=
  match r.opcode.toNat with
  | 0 => .ok (.push r.operand)
  | 1 => .ok .add
  | 2 => .ok .sub
  | 3 => .ok .mul
  | 4 => .ok .divmod
  | 5 => .ok .dup
  | 6 => .ok .swap
  | 7 => .ok .rot3
  | 8 => .ok .drop
  | 9 => .ok .printNum
  | 10 => .ok .printChar
  | 11 => .ok .dump
  | 12 => .ok (.memSetAbs r.operand)
  | 13 => .ok (.memGetAbs r.operand)
  | 14 => .ok .compare
  | 15 => .ok (.jmp r.operand)
  | 16 => .ok (.jmpIfCarry r.operand)
  | 17 => .ok (.jmpIfNotCarry r.operand)
  | 18 => .ok (.jmpIfEqual r.operand)
  | 19 => .ok (.jmpIfNotEqual r.operand)
  | 20 => .ok (.jmpIfLess r.operand)
  | 21 => .ok (.jmpIfLessOrEqual r.operand)
  | 22 => .ok (.jmpIfGreater r.operand)
  | 23 => .ok (.jmpIfGreaterOrEqual r.operand)
  | 24 => .ok .memSetIndirect
  | 25 => .ok .memGetIndirect
  | 26 => .ok (.call r.operand)
  | 27 => .ok .ret
  | 28 => .ok .exit
  | _ => .error (.illegalOpcode r.opcode)

/-- The first record of a byte sequence: 8 bytes, opcode field then operand field (R70, R71), and the bytes after it. -/
def recordOfBytes : List Byte → Option (Record × List Byte)
  | b0 :: b1 :: b2 :: b3 :: b4 :: b5 :: b6 :: b7 :: rest =>
    some (⟨wordOfBytes b0 b1 b2 b3, wordOfBytes b4 b5 b6 b7⟩, rest)
  | _ => none

/-- The first instruction of any byte sequence, and the bytes after it. -/
def decodeBytes (bytes : List Byte) : Except DecodeError (Instr × List Byte) :=
  match recordOfBytes bytes with
  | none => .error .truncated
  | some (r, rest) =>
    match decode r with
    | .ok i => .ok (i, rest)
    | .error e => .error e

/-! The encoder, from the tables of R72 and R74. -/

/-- The format column of R72 and R74. -/
def Instr.format : Instr → Format
  | .push _ | .memSetAbs _ | .memGetAbs _ | .jmp _ | .jmpIfCarry _ | .jmpIfNotCarry _ | .jmpIfEqual _
  | .jmpIfNotEqual _ | .jmpIfLess _ | .jmpIfLessOrEqual _ | .jmpIfGreater _ | .jmpIfGreaterOrEqual _ | .call _ => .I
  | .add | .sub | .mul | .divmod | .dup | .swap | .rot3 | .drop | .printNum | .printChar | .dump | .compare
  | .memSetIndirect | .memGetIndirect | .ret | .exit => .N

/-- The opcode column of R74. -/
def Instr.opcode : Instr → Nat
  | .push _ => 0
  | .add => 1
  | .sub => 2
  | .mul => 3
  | .divmod => 4
  | .dup => 5
  | .swap => 6
  | .rot3 => 7
  | .drop => 8
  | .printNum => 9
  | .printChar => 10
  | .dump => 11
  | .memSetAbs _ => 12
  | .memGetAbs _ => 13
  | .compare => 14
  | .jmp _ => 15
  | .jmpIfCarry _ => 16
  | .jmpIfNotCarry _ => 17
  | .jmpIfEqual _ => 18
  | .jmpIfNotEqual _ => 19
  | .jmpIfLess _ => 20
  | .jmpIfLessOrEqual _ => 21
  | .jmpIfGreater _ => 22
  | .jmpIfGreaterOrEqual _ => 23
  | .memSetIndirect => 24
  | .memGetIndirect => 25
  | .call _ => 26
  | .ret => 27
  | .exit => 28

/-- The operand field: the operand of a format-`I` instruction, 0 for a format-`N` instruction (R83). -/
def Instr.operandField : Instr → Word
  | .push x | .memSetAbs x | .memGetAbs x | .jmp x | .jmpIfCarry x | .jmpIfNotCarry x | .jmpIfEqual x
  | .jmpIfNotEqual x | .jmpIfLess x | .jmpIfLessOrEqual x | .jmpIfGreater x | .jmpIfGreaterOrEqual x | .call x => x
  | .add | .sub | .mul | .divmod | .dup | .swap | .rot3 | .drop | .printNum | .printChar | .dump | .compare
  | .memSetIndirect | .memGetIndirect | .ret | .exit => 0

/-- The record of an instruction. -/
def encode (i : Instr) : Record := ⟨BitVec.ofNat 32 i.opcode, i.operandField⟩

/-- The record word `Wd` of a record (R71): the operand in the high half. -/
def Record.toWd (r : Record) : BitVec 64 := r.operand ++ r.opcode

/-- A 32-bit field as four bytes in file order, little-endian (20_memory.md R54). -/
def wordBytes (w : Word) : List Byte :=
  [w.extractLsb' 0 8, w.extractLsb' 8 8, w.extractLsb' 16 8, w.extractLsb' 24 8]

/-- A record as its 8 image bytes in file order (R71). -/
def recordBytes (r : Record) : List Byte := wordBytes r.opcode ++ wordBytes r.operand

/-- An instruction as its 8 image bytes. -/
def encodeBytes (i : Instr) : List Byte := recordBytes (encode i)

/-- The record whose bits are `w`, numbered as opcode_table.json numbers them (bit 0 of `Wd` first), every bit from
`nbits` on being 0. -/
def tableRecord (nbits w : Nat) : Record := Record.ofWd (BitVec.ofNat 64 (w % 2 ^ nbits))

/-- What the decoder reads from the instruction whose bits are `w`: the record is laid out as its 8 image bytes and the
bytes are decoded. -/
def decodeTableWord (nbits w : Nat) : Option Instr :=
  match decodeBytes (recordBytes (tableRecord nbits w)) with
  | .ok (i, _) => some i
  | .error _ => none

end Sys2Proof
end

