-- ==== Sys2Proof/Machine/State.lean ====
section
/-! DEFINITION. The state of the core (spec/10_state.md R20 to R42), the reasons a step can stop, and the state after
reset. -/

namespace Sys2Proof.Machine

/-- The condition-flag register: `E`, `L`, `G` and `C` (R28). -/
structure Flags where
  /-- `E`, written only by COMPARE (R29). -/
  equal : Bool
  /-- `L`, written only by COMPARE (R29). -/
  less : Bool
  /-- `G`, written only by COMPARE (R29). -/
  greater : Bool
  /-- `C`, written only by ADD, SUB and MUL (R30). -/
  carry : Bool
  deriving DecidableEq, Repr

/-- `run_state` (R34). Every value but `running` is final (60_exceptions.md R235). -/
inductive RunState where
  | running
  | haltedNormally
  | haltedOnFault (kind : FaultKind)
  | terminated (code : Word)
  deriving DecidableEq, Repr

/-- A console event (43_output.md R160). -/
inductive ConsoleEvent where
  | num (v : Word)
  | char (c : Byte)
  /-- The operand stack, top entry first. -/
  | dump (vs : List Word)
  deriving DecidableEq, Repr

/-- A fault report (60_exceptions.md R224): both stacks are listed top entry first. -/
structure FaultReport where
  kind : FaultKind
  osDump : List Word
  csDump : List Index
  deriving DecidableEq, Repr

/-- The data memory `M` (R35): pairs of a cell index and the cell's value. The unit of access is the whole 32-bit cell
(20_memory.md R50, R53), so a pair holds a cell (log 1). A cell that is not listed reads as 0, its reset value (R42,
D13). The canonical form is `Memory.wf` of Machine/Ops.lean. -/
abbrev Memory := List (Nat × Word)

/-- The state tuple of R20, with the parameters of 00_scope.md R6 (log 3) and the program store, which the spec calls an
input fixed at load (R37, log 4). `sp`, `csp` and `K` are the lengths of `os`, `cs` and `prog` (log 2). -/
structure State where
  /-- The parameters `N`, `MEM_SIZE`, `CARRY_READING` and `ROT3_READING`. No step writes them. -/
  cfg : Config
  /-- `PROG[0..K-1]`. No step writes it (R37). -/
  prog : List Record
  /-- `OS`, top entry first (R22). -/
  os : List Word
  /-- `CS`, top entry first (R24). -/
  cs : List Index
  /-- `M` (R35). -/
  mem : Memory
  /-- `pc`: the index of the next record to fetch (R25). -/
  pc : Index
  /-- `E`, `L`, `G`, `C` (R28). -/
  flags : Flags
  /-- `run_state` (R34). -/
  runState : RunState
  /-- `out`, the console output stream, oldest event first (R39). -/
  out : List ConsoleEvent
  /-- `diag`, the diagnostic stream, oldest report first (R40). -/
  diag : List FaultReport
  deriving DecidableEq, Repr

/-- Why the machine stops with no next state. A fault of the instruction set is no member: its entry is a next state
(60_exceptions.md R223). -/
inductive Fault where
  /-- Raised by `step` alone, from a final run state: no step is defined there (40_cycle.md R100, 60_exceptions.md R235).
  Safe: the core takes no step either (log 6). -/
  | finalState (r : RunState)
  deriving DecidableEq, Repr

/-- Why an instruction has no meaning in the model. -/
inductive Refusal where
  /-- For `exec`'s arms only: an instruction whose meaning is not written. No arm uses it in this model. Safe. -/
  | notModelled (mnemonic : String)
  deriving DecidableEq, Repr

/-- The machine right after reset (R42), with the default parameters and no program loaded (`K = 0`, `IMAGE` empty): the
load that gives it a program is `boot` of Machine/Loader.lean (log 4, log 5). -/
def State.reset : State where
  cfg := Config.standard
  prog := []
  os := []
  cs := []
  mem := []
  pc := 0
  flags := ⟨false, false, false, false⟩
  runState := .running
  out := []
  diag := []

end Sys2Proof.Machine
end

