-- ==== Sys2Proof/Machine/Numeric.lean ====
section
/-! DEFINITION. The conversions of spec/00_scope.md R9. -/

namespace Sys2Proof.Machine

/-- `wrap32(x)`: the `i32` congruent to `x` modulo `2^32`. -/
def wrap32 (x : Int) : Word := BitVec.ofInt 32 x

/-- `x` is an `i32`: it lies in `[-2^31, 2^31 - 1]` (R8). -/
def isI32 (x : Int) : Bool := decide (-2 ^ 31 ≤ x) && decide (x ≤ 2 ^ 31 - 1)

/-- `trunc_div(a, b)`: the quotient rounded toward zero. -/
def truncDiv (a b : Int) : Int := Int.tdiv a b

/-- `trunc_rem(a, b) = a - b * trunc_div(a, b)`. -/
def truncRem (a b : Int) : Int := a - b * truncDiv a b

/-- `v[7:0]` (R8). -/
def lowByte (v : Word) : Byte := v.extractLsb' 0 8

end Sys2Proof.Machine
end

