-- ==== Sys2Proof/Machine/Ops.lean ====
section
/-! DEFINITION. The named operations every meaning is built from: views of the state, data memory, the stack
primitives, the streams, fetching, and taking a fault (spec/40_cycle.md R101 to R107, 20_memory.md R52,
60_exceptions.md R223). There is no return from a fault (60_exceptions.md R225), so no operation beside it. -/

namespace Sys2Proof.Machine

/-! ### Views -/

/-- `sp`, the operand-stack length (10_state.md R22). -/
def State.sp (s : State) : Nat := s.os.length

/-- `csp`, the call-stack length (10_state.md R24). -/
def State.csp (s : State) : Nat := s.cs.length

/-- `K`, the program length (10_state.md R38). -/
def State.progLen (s : State) : Nat := s.prog.length

/-- `OS[i]`, entry 0 being the bottom (10_state.md R23); none at or above `sp`. -/
def State.osEntry (s : State) (i : Nat) : Option Word := s.os.reverse[i]?

/-- `CS[i]`, entry 0 being the bottom; none at or above `csp`. -/
def State.csEntry (s : State) (i : Nat) : Option Index := s.cs.reverse[i]?

/-! ### Data memory (20_memory.md R52) -/

/-- The canonical form from cell `lo` on: cell indices strictly rising, none below `lo`, no listed cell holding 0. -/
def Memory.wfFrom (lo : Nat) : Memory → Bool
  | [] => true
  | (a, v) :: m => decide (lo ≤ a) && decide (v ≠ 0#32) && Memory.wfFrom (a + 1) m

/-- The canonical form of a memory: equal memories are equal lists. -/
def Memory.wf (m : Memory) : Bool := Memory.wfFrom 0 m

/-- Every listed cell exists: its index is below `MEM_SIZE` (10_state.md R35). -/
def Memory.within (size : Nat) (m : Memory) : Bool := m.all fun c => decide (c.1 < size)

/-- `MemRead(a, 1)`: the value of cell `a`. A cell that is not listed holds 0 (10_state.md R42, D13). -/
def Memory.read : Memory → Nat → Word
  | [], _ => 0
  | (b, v) :: m, a => if b = a then v else Memory.read m a

/-- `MemWrite(a, 1, v)`, keeping the canonical form: writing 0 removes the entry. -/
def Memory.write : Memory → Nat → Word → Memory
  | [], a, v => if v = 0#32 then [] else [(a, v)]
  | (b, w) :: m, a, v =>
    if a < b then (if v = 0#32 then (b, w) :: m else (a, v) :: (b, w) :: m)
    else if a = b then (if v = 0#32 then m else (a, v) :: m)
    else (b, w) :: Memory.write m a v

/-- The memory whose cells `i`, `i + 1`, … hold the words of a list and whose other cells hold 0. -/
def Memory.ofWordsFrom (i : Nat) : List Word → Memory
  | [] => []
  | w :: ws => if w = 0#32 then Memory.ofWordsFrom (i + 1) ws else (i, w) :: Memory.ofWordsFrom (i + 1) ws

/-- The preloaded memory: `M[j] = IMAGE[j]`, every other cell 0 (70_reset_and_hazards.md R250 step 4). -/
def Memory.ofImage (image : List Word) : Memory := Memory.ofWordsFrom 0 image

/-- The value of one cell of the machine's memory. -/
def State.readCell (s : State) (a : Nat) : Word := s.mem.read a

/-! ### Writes of one component -/

/-- `OS` replaced. -/
def State.setOs (s : State) (os : List Word) : State := { s with os := os }

/-- `CS` replaced. -/
def State.setCs (s : State) (cs : List Index) : State := { s with cs := cs }

/-- `Push(v)` (40_cycle.md R106); its room is checked before. -/
def State.push (s : State) (v : Word) : State := s.setOs (v :: s.os)

/-- `CPush(v)` (40_cycle.md R106); its room is checked before. -/
def State.cpush (s : State) (v : Index) : State := s.setCs (v :: s.cs)

/-- `MemWrite(a, 1, v)` on the machine's memory. -/
def State.storeCell (s : State) (a : Nat) (v : Word) : State := { s with mem := s.mem.write a v }

/-- `pc <- target`. -/
def State.jumpTo (s : State) (target : Index) : State := { s with pc := target }

/-- The flag register replaced. -/
def State.setFlags (s : State) (f : Flags) : State := { s with flags := f }

/-- `Emit(e)`: the event goes to the end of `out` (10_state.md R39). -/
def State.emit (s : State) (e : ConsoleEvent) : State := { s with out := s.out ++ [e] }

/-! ### Outcomes (40_cycle.md R104, R105) -/

/-- What `Execute` returns (R104); a completed instruction carries the state its writes leave. -/
inductive Result where
  | ok (s : State)
  | fault (kind : FaultKind)
  | terminate (code : Word) (s : State)
  deriving DecidableEq, Repr

/-- The fault report of a state (60_exceptions.md R224): the kind and both stacks, top entry first. -/
def State.faultReport (s : State) (kind : FaultKind) : FaultReport := ⟨kind, s.os, s.cs⟩

/-- TAKING A FAULT (60_exceptions.md R223): the run state and the report, nothing else. `pc` already holds `i + 1`. -/
def takeFault (kind : FaultKind) (s : State) : State :=
  { s with runState := .haltedOnFault kind, diag := s.diag ++ [s.faultReport kind] }

/-- EXIT's end of the run (46_call_return_exit.md R212): no report is written (60_exceptions.md R228). -/
def terminateRun (code : Word) (s : State) : State := { s with runState := .terminated code }

/-- `Apply` (R105) to the state `s` in which the instruction began, with `pc` already incremented. A fault discards
every write of the instruction (R107), so it is taken in `s`. -/
def applyResult (s : State) : Result → Host.Outcome State Fault Refusal
  | .ok t => .next t
  | .fault kind => .next (takeFault kind s)
  | .terminate code t => .next (terminateRun code t)

/-! ### Checks and pops (40_cycle.md R106) -/

/-- `NeedOS(1)` and `Pop()`: the popped entry and the state without it go on. -/
def withPop1 (s : State) (go : Word → State → Result) : Result :=
  match s.os with
  | v :: os => go v (s.setOs os)
  | [] => .fault .stackUnderflow

/-- `NeedOS(2)`, `b <- Pop()`, `a <- Pop()`: `go b a` goes on. -/
def withPop2 (s : State) (go : Word → Word → State → Result) : Result :=
  match s.os with
  | b :: a :: os => go b a (s.setOs os)
  | _ => .fault .stackUnderflow

/-- `NeedOS(3)` and three pops, `a` topmost: `go a b c` goes on. -/
def withPop3 (s : State) (go : Word → Word → Word → State → Result) : Result :=
  match s.os with
  | a :: b :: c :: os => go a b c (s.setOs os)
  | _ => .fault .stackUnderflow

/-- `RoomOS()`: `sp >= N` raises `StackOverflow`. -/
def withRoomOS (s : State) (go : Result) : Result :=
  if s.cfg.stackCap ≤ s.sp then .fault .stackOverflow else go

/-- `NeedCS()` and `CPop()`. -/
def withCPop (s : State) (go : Index → State → Result) : Result :=
  match s.cs with
  | v :: cs => go v (s.setCs cs)
  | [] => .fault .stackUnderflow

/-- `RoomCS()`: `csp >= N` raises `StackOverflow`. -/
def withRoomCS (s : State) (go : Result) : Result :=
  if s.cfg.stackCap ≤ s.csp then .fault .stackOverflow else go

/-! ### The engine's own actions (40_cycle.md R101, R102) -/

/-- `PROG[pc]`, none when `pc >= K` compared as unsigned numbers (R101). -/
def fetch (s : State) : Option Record := s.prog[s.pc.toNat]?

/-- `pc <- pc + 1` (R102). It does not wrap where a record was fetched and `K` is a `u32` (10_state.md R26). -/
def State.advance (s : State) : State := { s with pc := s.pc + 1 }

/-- The halt check's effect (R101): only the run state changes. -/
def haltNormally (s : State) : State := { s with runState := .haltedNormally }

/-- The store with record `r` at index `i`: a record that was there is replaced; a shorter store is filled up with
all-zero records below `i` (log 11). -/
def progWithRecord (prog : List Record) (i : Nat) (r : Record) : List Record :=
  prog.take i ++ List.replicate (i - prog.length) ⟨0, 0⟩ ++ r :: prog.drop (i + 1)

end Sys2Proof.Machine
end

