-- ==== Sys2Proof/Machine/Operands.lean ====
section
/-! DEFINITION. The operand forms: the three uses of the operand field (spec/30_encoding.md R73), the two addressing
modes (44_memory_access.md R170, R171) and the divisor check (42_arithmetic.md R144). Entries of the stacks are reached
by the pops of Machine/Ops.lean. -/

namespace Sys2Proof.Machine

/-- A branch or call target, `T = u32(operand)`: the same 32 bits as an unsigned record index (45_compare_branch.md
R191, D10). -/
def target (operand : Word) : Index := operand

/-- The cell a candidate address names (R170): the signed value itself when `0 <= a < MEM_SIZE`, none otherwise. -/
def cellOf (c : Config) (a : Word) : Option Nat :=
  if 0 ≤ a.toInt ∧ a.toInt < (c.memSize : Int) then some a.toInt.toNat else none

/-- `CheckAddr(a)` (R170), for an absolute address (the operand) and for an indirect one (`Top(1)`, D9) alike. -/
def withCell (s : State) (a : Word) (go : Nat → Result) : Result :=
  match cellOf s.cfg a with
  | some cell => go cell
  | none => .fault .illegalMemoryAccess

/-- The divisor check of DIVMOD (R144, D6, D7). -/
def withDivisor (a b : Word) (go : Result) : Result :=
  if b.toInt = 0 then .fault .divideError
  else if a.toInt = -2 ^ 31 ∧ b.toInt = -1 then .fault .divideError
  else go

end Sys2Proof.Machine
end

