-- ==== Sys2Proof/Machine/Flags.lean ====
section
/-! DEFINITION. Every flag computation: the carry (spec/42_arithmetic.md R140), the comparison flags
(45_compare_branch.md R190) and the branch conditions (R191). -/

namespace Sys2Proof.Machine

/-- The operations that write the carry (R140). -/
inductive AluOp where
  | add
  | sub
  | mul
  deriving DecidableEq, Repr

/-- The exact result `x` of an ALU operation, an unbounded integer (R140). -/
def AluOp.exact : AluOp → Int → Int → Int
  | .add, a, b => a + b
  | .sub, a, b => a - b
  | .mul, a, b => a * b

/-- `CarryOut(op, x)` (R140), under either reading. -/
def carryOut (reading : CarryReading) (op : AluOp) (x : Int) : Bool :=
  match reading with
  | .signedRange => !isI32 x
  | .directional =>
    match op with
    | .add => decide (x > 2 ^ 31 - 1)
    | .mul => decide (x > 2 ^ 31 - 1)
    | .sub => decide (x < -2 ^ 31)

/-- COMPARE's flags (R190): a signed comparison; `C` is unchanged. -/
def compareFlags (f : Flags) (a b : Word) : Flags :=
  { f with
    equal := decide (a.toInt = b.toInt)
    less := decide (a.toInt < b.toInt)
    greater := decide (a.toInt > b.toInt) }

/-- The condition column of R191. -/
inductive Cond where
  | always
  | carry
  | notCarry
  | equal
  | notEqual
  | less
  | lessOrEqual
  | greater
  | greaterOrEqual
  deriving DecidableEq, Repr

/-- The conditions of R191 on the flags as they are when the branch executes. -/
def Cond.holds : Cond → Flags → Bool
  | .always, _ => true
  | .carry, f => f.carry
  | .notCarry, f => !f.carry
  | .equal, f => f.equal
  | .notEqual, f => !f.equal
  | .less, f => f.less
  | .lessOrEqual, f => f.less || f.equal
  | .greater, f => f.greater
  | .greaterOrEqual, f => f.greater || f.equal

end Sys2Proof.Machine
end

