-- ==== Sys2Proof/Machine/Arithmetic.lean ====
section
/-! DEFINITION. The arithmetic instructions (spec/42_arithmetic.md R140 to R146). -/

namespace Sys2Proof.Machine

/-- The shape of R141 to R143: pop `b`, pop `a`, compute exactly, write the carry, push the wrapped result. -/
def aluOp (op : AluOp) (s : State) : Result :=
  withPop2 s fun b a t =>
    let x := op.exact a.toInt b.toInt
    .ok ((t.setFlags { t.flags with carry := carryOut s.cfg.carryReading op x }).push (wrap32 x))

/-- ADD (R141). -/
def execAdd (s : State) : Host.Outcome State Fault Refusal := applyResult s (aluOp .add s)

/-- SUB (R142). -/
def execSub (s : State) : Host.Outcome State Fault Refusal := applyResult s (aluOp .sub s)

/-- MUL (R143). -/
def execMul (s : State) : Host.Outcome State Fault Refusal := applyResult s (aluOp .mul s)

/-- DIVMOD (R144): the remainder is pushed first, the quotient is on top; no flag is written. -/
def execDivmod (s : State) : Host.Outcome State Fault Refusal :=
  applyResult s (withPop2 s fun b a t =>
    withDivisor a b
      (.ok ((t.push (wrap32 (truncRem a.toInt b.toInt))).push (wrap32 (truncDiv a.toInt b.toInt)))))

end Sys2Proof.Machine
end

