-- ==== Sys2Proof/Machine/Branch.lean ====
section
/-! DEFINITION. COMPARE, JMP and the conditional jumps (spec/45_compare_branch.md R190 to R200). -/

namespace Sys2Proof.Machine

/-- COMPARE (R190): both operands are consumed, nothing is pushed. -/
def execCompare (s : State) : Host.Outcome State Fault Refusal :=
  applyResult s (withPop2 s fun b a t => .ok (t.setFlags (compareFlags t.flags a b)))

/-- The branch multiplexer (R191): `pc <- (cond ? T : pc)`, where `pc` is already `i + 1`. The target is not checked. -/
def branch (c : Cond) (operand : Word) (s : State) : Result :=
  .ok (if c.holds s.flags then s.jumpTo (target operand) else s)

/-- JMP (R192). -/
def execJmp (operand : Word) (s : State) : Host.Outcome State Fault Refusal := applyResult s (branch .always operand s)

/-- JMP_IF_CARRY (R193). -/
def execJmpIfCarry (operand : Word) (s : State) : Host.Outcome State Fault Refusal :=
  applyResult s (branch .carry operand s)

/-- JMP_IF_NOT_CARRY (R194). -/
def execJmpIfNotCarry (operand : Word) (s : State) : Host.Outcome State Fault Refusal :=
  applyResult s (branch .notCarry operand s)

/-- JMP_IF_EQUAL (R195). -/
def execJmpIfEqual (operand : Word) (s : State) : Host.Outcome State Fault Refusal :=
  applyResult s (branch .equal operand s)

/-- JMP_IF_NOT_EQUAL (R196). -/
def execJmpIfNotEqual (operand : Word) (s : State) : Host.Outcome State Fault Refusal :=
  applyResult s (branch .notEqual operand s)

/-- JMP_IF_LESS (R197). -/
def execJmpIfLess (operand : Word) (s : State) : Host.Outcome State Fault Refusal :=
  applyResult s (branch .less operand s)

/-- JMP_IF_LESS_OR_EQUAL (R198). -/
def execJmpIfLessOrEqual (operand : Word) (s : State) : Host.Outcome State Fault Refusal :=
  applyResult s (branch .lessOrEqual operand s)

/-- JMP_IF_GREATER (R199). -/
def execJmpIfGreater (operand : Word) (s : State) : Host.Outcome State Fault Refusal :=
  applyResult s (branch .greater operand s)

/-- JMP_IF_GREATER_OR_EQUAL (R200). -/
def execJmpIfGreaterOrEqual (operand : Word) (s : State) : Host.Outcome State Fault Refusal :=
  applyResult s (branch .greaterOrEqual operand s)

end Sys2Proof.Machine
end

