-- ==== Sys2Proof/Machine/CallExit.lean ====
section
/-! DEFINITION. CALL, RETURN and EXIT (spec/46_call_return_exit.md R210 to R212). -/

namespace Sys2Proof.Machine

/-- CALL (R210): the pushed address is `pc`, already the index of the record after the CALL. -/
def execCall (operand : Word) (s : State) : Host.Outcome State Fault Refusal :=
  applyResult s (withRoomCS s (.ok ((s.cpush s.pc).jumpTo (target operand))))

/-- RETURN (R211). -/
def execRet (s : State) : Host.Outcome State Fault Refusal :=
  applyResult s (withCPop s fun v t => .ok (t.jumpTo v))

/-- EXIT (R212): it never faults; the code is the popped entry, or 0 when the stack is empty. -/
def execExit (s : State) : Host.Outcome State Fault Refusal :=
  applyResult s (match s.os with
    | code :: os => .terminate code (s.setOs os)
    | [] => .terminate 0 s)

end Sys2Proof.Machine
end

