-- ==== Sys2Proof/Machine/MemAccess.lean ====
section
/-! DEFINITION. The memory instructions (spec/44_memory_access.md R172 to R175). The stack check comes before the
address check (D15). -/

namespace Sys2Proof.Machine

/-- MEM_SET_ABS (R172). -/
def execMemSetAbs (addr : Word) (s : State) : Host.Outcome State Fault Refusal :=
  applyResult s (withPop1 s fun v t => withCell s addr fun cell => .ok (t.storeCell cell v))

/-- MEM_GET_ABS (R173). -/
def execMemGetAbs (addr : Word) (s : State) : Host.Outcome State Fault Refusal :=
  applyResult s (withRoomOS s (withCell s addr fun cell => .ok (s.push (s.readCell cell))))

/-- MEM_SET_INDIRECT (R174): the address is on top, the value below it. -/
def execMemSetIndirect (s : State) : Host.Outcome State Fault Refusal :=
  applyResult s (withPop2 s fun addr v t => withCell s addr fun cell => .ok (t.storeCell cell v))

/-- MEM_GET_INDIRECT (R175): the cell's value replaces the address, so there is no capacity check. -/
def execMemGetIndirect (s : State) : Host.Outcome State Fault Refusal :=
  applyResult s (withPop1 s fun addr t => withCell s addr fun cell => .ok (t.push (s.readCell cell)))

end Sys2Proof.Machine
end

