-- ==== Sys2Proof/Machine/Output.lean ====
section
/-! DEFINITION. The output instructions (spec/43_output.md R160 to R163). The console always accepts an event
(60_exceptions.md R232, D29). -/

namespace Sys2Proof.Machine

/-- PRINT_NUM (R161). -/
def execPrintNum (s : State) : Host.Outcome State Fault Refusal :=
  applyResult s (withPop1 s fun v t => .ok (t.emit (.num v)))

/-- PRINT_CHAR (R162): bits 7:0 of the popped value. -/
def execPrintChar (s : State) : Host.Outcome State Fault Refusal :=
  applyResult s (withPop1 s fun v t => .ok (t.emit (.char (lowByte v))))

/-- DUMP (R163): the whole operand stack, top first; it needs nothing and changes nothing else. -/
def execDump (s : State) : Host.Outcome State Fault Refusal :=
  applyResult s (.ok (s.emit (.dump s.os)))

end Sys2Proof.Machine
end

