-- ==== Sys2Proof/Machine/Stack.lean ====
section
/-! DEFINITION. The stack instructions (spec/41_stack.md R120 to R124). No flag is written. -/

namespace Sys2Proof.Machine

/-- PUSH (R120). -/
def execPush (imm : Word) (s : State) : Host.Outcome State Fault Refusal :=
  applyResult s (withRoomOS s (.ok (s.push imm)))

/-- DUP (R121): occupancy first (D8), then capacity. -/
def execDup (s : State) : Host.Outcome State Fault Refusal :=
  applyResult s (withPop1 s fun v _ => withRoomOS s (.ok (s.push v)))

/-- SWAP (R122). -/
def execSwap (s : State) : Host.Outcome State Fault Refusal :=
  applyResult s (withPop2 s fun b a t => .ok ((t.push b).push a))

/-- ROT3 (R123, C2, D17) under either `ROT3_READING`. -/
def execRot3 (s : State) : Host.Outcome State Fault Refusal :=
  applyResult s (withPop3 s fun a b c t =>
    match s.cfg.rot3Reading with
    | .noOp => .ok (((t.push c).push b).push a)
    | .reverseTop3 => .ok (((t.push a).push b).push c))

/-- DROP (R124). -/
def execDrop (s : State) : Host.Outcome State Fault Refusal :=
  applyResult s (withPop1 s fun _ t => .ok t)

end Sys2Proof.Machine
end

