-- ==== Sys2Proof/Machine/Dispatch.lean ====
section
/-! DEFINITION. One arm per instruction (spec/40_cycle.md R104): it acts on a state whose `pc` is already incremented. -/

namespace Sys2Proof.Machine

/-- `Execute` and `Apply` (40_cycle.md R104, R105). -/
def exec (i : Instr) (s : State) : Host.Outcome State Fault Refusal :=
  match i with
  | .push imm => Sys2Proof.Machine.execPush imm s
  | .add => Sys2Proof.Machine.execAdd s
  | .sub => Sys2Proof.Machine.execSub s
  | .mul => Sys2Proof.Machine.execMul s
  | .divmod => Sys2Proof.Machine.execDivmod s
  | .dup => Sys2Proof.Machine.execDup s
  | .swap => Sys2Proof.Machine.execSwap s
  | .rot3 => Sys2Proof.Machine.execRot3 s
  | .drop => Sys2Proof.Machine.execDrop s
  | .printNum => Sys2Proof.Machine.execPrintNum s
  | .printChar => Sys2Proof.Machine.execPrintChar s
  | .dump => Sys2Proof.Machine.execDump s
  | .memSetAbs addr => Sys2Proof.Machine.execMemSetAbs addr s
  | .memGetAbs addr => Sys2Proof.Machine.execMemGetAbs addr s
  | .compare => Sys2Proof.Machine.execCompare s
  | .jmp target => Sys2Proof.Machine.execJmp target s
  | .jmpIfCarry target => Sys2Proof.Machine.execJmpIfCarry target s
  | .jmpIfNotCarry target => Sys2Proof.Machine.execJmpIfNotCarry target s
  | .jmpIfEqual target => Sys2Proof.Machine.execJmpIfEqual target s
  | .jmpIfNotEqual target => Sys2Proof.Machine.execJmpIfNotEqual target s
  | .jmpIfLess target => Sys2Proof.Machine.execJmpIfLess target s
  | .jmpIfLessOrEqual target => Sys2Proof.Machine.execJmpIfLessOrEqual target s
  | .jmpIfGreater target => Sys2Proof.Machine.execJmpIfGreater target s
  | .jmpIfGreaterOrEqual target => Sys2Proof.Machine.execJmpIfGreaterOrEqual target s
  | .memSetIndirect => Sys2Proof.Machine.execMemSetIndirect s
  | .memGetIndirect => Sys2Proof.Machine.execMemGetIndirect s
  | .call target => Sys2Proof.Machine.execCall target s
  | .ret => Sys2Proof.Machine.execRet s
  | .exit => Sys2Proof.Machine.execExit s

end Sys2Proof.Machine
end

