-- ==== Sys2Proof/Machine/Step.lean ====
section
/-! DEFINITION. The core's single transition (spec/40_cycle.md R100 to R105). -/

namespace Sys2Proof.Machine

/-- `Step` (R100). A running core halts normally when `pc >= K` (R101); otherwise it fetches the record, increments `pc`
(R102), decodes (R103) and executes (R104), an illegal opcode being the fault `IllegalInstruction` taken with `pc`
already incremented (D16). From a final run state there is no step (60_exceptions.md R235). -/
def step (s : State) : Host.Outcome State Fault Refusal :=
  match s.runState with
  | .running =>
    match fetch s with
    | none => .next (haltNormally s)
    | some r =>
      match decode r with
      | .ok i => exec i s.advance
      | .error _ => applyResult s.advance (.fault .illegalInstruction)
  | r => .fault (.finalState r)

/-- The state `s` with the record whose bits are `w` placed where `step` fetches its next instruction: at index `pc` of
the program store (log 11). It stands for the load of a program (log 4), so the run state is set to `Running`. -/
def State.withFetchWord (s : State) (nbits w : Nat) : State :=
  { s with prog := progWithRecord s.prog s.pc.toNat (tableRecord nbits w), runState := .running }

end Sys2Proof.Machine
end

