-- ==== Sys2Proof/Machine/Ports.lean ====
section
/-! DEFINITION. What the host does with the ports (spec/60_exceptions.md R229, R232, 43_output.md R160): the bytes it
prints and the process exit code. Nothing here is core state. -/

namespace Sys2Proof.Machine

/-- The status code of a fault kind (R220, D20); `Ok` is 0. -/
def faultCode : FaultKind → Nat
  | .stackOverflow => 1
  | .stackUnderflow => 2
  | .illegalInstruction => 3
  | .illegalMemoryAccess => 4
  | .divideError => 5

/-- The status code of an outcome (R220): 0 when no fault was found. -/
def statusCode : Option FaultKind → Nat
  | none => 0
  | some kind => faultCode kind

/-- The ASCII byte of a decimal digit. -/
def digitByte (d : Nat) : Byte := BitVec.ofNat 8 (48 + d)

/-- The decimal digits of `n`, most significant first, before `acc`; `fuel` bounds the number of digits. -/
def digitsAux : Nat → Nat → List Byte → List Byte
  | 0, _, acc => acc
  | fuel + 1, n, acc =>
    if n < 10 then digitByte n :: acc else digitsAux fuel (n / 10) (digitByte (n % 10) :: acc)

/-- The shortest string of ASCII digits of `n` (43_output.md R160), for `n < 10^10`, which holds of every `|v|`. -/
def decimalNat (n : Nat) : List Byte := digitsAux 10 n []

/-- The decimal representation of a value (43_output.md R160; log 13): `-` when negative, no `+`, no leading zeros. -/
def decimal (v : Word) : List Byte :=
  if v.toInt < 0 then 45#8 :: decimalNat v.toInt.natAbs else decimalNat v.toInt.natAbs

/-- The text `[empty]` in ASCII. -/
def emptyText : List Byte := [0x5B#8, 0x65#8, 0x6D#8, 0x70#8, 0x74#8, 0x79#8, 0x5D#8]

/-- `DUMP_RENDER` (00_scope.md R6, D18): it contains the text `[empty]` for the empty list and is open otherwise
(log 9). -/
def renderDump : List Word → List Byte
  | [] => Config.dumpEmptyBefore ++ emptyText ++ Config.dumpEmptyAfter
  | v :: vs => Config.dumpRender (v :: vs)

/-- The bytes a host prints for a console event (43_output.md R160). -/
def renderEvent : ConsoleEvent → List Byte
  | .num v => decimal v ++ [0x0A#8]
  | .char c => [c]
  | .dump vs => renderDump vs

/-- The bytes of the console port, in program order (20_memory.md R61). -/
def consoleBytes (s : State) : List Byte := s.out.flatMap renderEvent

/-- The bytes of the diagnostic port (60_exceptions.md R224, D19). -/
def diagBytes (s : State) : List Byte := s.diag.flatMap fun r => Config.faultRender r.kind r.osDump r.csDump

/-- The process exit code of a run that ended (60_exceptions.md R229, D11); none while it runs. `Terminated(code)` gives
the full `i32` (D27). -/
def exitCode : RunState → Option Int
  | .running => none
  | .haltedNormally => some 0
  | .haltedOnFault _ => some 0
  | .terminated code => some code.toInt

/-- The process exit code of a rejected load (60_exceptions.md R229): nonzero, otherwise free (log 10). -/
def loadFailureExitCode : Int := if Config.loadFailureDraw = 0 then 1 else Config.loadFailureDraw

end Sys2Proof.Machine
end

