-- ==== Sys2Proof/Machine/Loader.lean ====
section
/-! DEFINITION. The load port: the program image, its checks (spec/30_encoding.md R78 to R82) and the reset and load that
starts a run (70_reset_and_hazards.md R250). -/

namespace Sys2Proof.Machine

/-- Why the loader rejects an image (30_encoding.md R80, R81, D21). -/
inductive LoadError where
  /-- The first four bytes are not the magic. -/
  | badMagic
  /-- The image is shorter than 8 bytes. -/
  | shortHeader
  /-- The image is shorter than `8 + 8*K` bytes. -/
  | missingRecords
  /-- The preload has more than `MEM_SIZE` words. -/
  | preloadTooLarge
  deriving DecidableEq, Repr

/-- What the loader hands to the core: `PROG` (whose length is `K`) and `IMAGE`. -/
structure Loaded where
  prog : List Record
  image : List Word
  deriving DecidableEq, Repr

/-- The magic (30_encoding.md R79). -/
def magic : Word := 0x00565343#32

/-- The first `k` records of a byte sequence and the bytes after them; none when the bytes do not suffice. -/
def takeRecords : Nat → List Byte → Option (List Record × List Byte)
  | 0, bytes => some ([], bytes)
  | k + 1, bytes =>
    match recordOfBytes bytes with
    | none => none
    | some (r, rest) =>
      match takeRecords k rest with
      | none => none
      | some (rs, rest') => some (r :: rs, rest')

/-- The whole 4-byte words of a byte sequence; a trailing partial word is ignored (30_encoding.md R79). -/
def wordsOfBytes : List Byte → List Word
  | b0 :: b1 :: b2 :: b3 :: rest => wordOfBytes b0 b1 b2 b3 :: wordsOfBytes rest
  | _ => []

/-- The loader (30_encoding.md R79 to R82). It looks at no opcode, operand, target or address. -/
def loadImage (c : Config) : List Byte → Except LoadError Loaded
  | m0 :: m1 :: m2 :: m3 :: k0 :: k1 :: k2 :: k3 :: body =>
    if wordOfBytes m0 m1 m2 m3 ≠ magic then .error .badMagic
    else
      match takeRecords (wordOfBytes k0 k1 k2 k3).toNat body with
      | none => .error .missingRecords
      | some (prog, rest) =>
        let image := wordsOfBytes rest
        if c.memSize < image.length then .error .preloadTooLarge else .ok ⟨prog, image⟩
  | m0 :: m1 :: m2 :: m3 :: _ =>
    if wordOfBytes m0 m1 m2 m3 ≠ magic then .error .badMagic else .error .shortHeader
  | _ => .error .shortHeader

/-- The image of a program and a preload (30_encoding.md R79). -/
def imageBytes (p : Loaded) : List Byte :=
  wordBytes magic ++ wordBytes (BitVec.ofNat 32 p.prog.length) ++ p.prog.flatMap recordBytes ++ p.image.flatMap wordBytes

/-- The state in which a run begins (70_reset_and_hazards.md R250): the reset values, the program store set, the memory
zeroed and preloaded. -/
def bootState (c : Config) (p : Loaded) : State :=
  { State.reset with cfg := c, prog := p.prog, mem := Memory.ofImage p.image }

/-- Reset and load (70_reset_and_hazards.md R250): a rejected image gives no state. -/
def boot (c : Config) (bytes : List Byte) : Except LoadError State :=
  match loadImage c bytes with
  | .ok p => .ok (bootState c p)
  | .error e => .error e

/-- The process exit code of a load (60_exceptions.md R229): none when the run starts. -/
def loadExitCode : Except LoadError State → Option Int
  | .ok _ => none
  | .error _ => some loadFailureExitCode

end Sys2Proof.Machine
end

