-- ==== Sys2Proof/Safety.lean ====
section
/-! DEFINITION. What claims call a good state, a safe state and a reachable state. -/

namespace Sys2Proof.Machine

/-- What the diagnostic stream holds in each run state (spec/10_state.md R40, 60_exceptions.md R224, R228): exactly one
report, of that kind and of the stacks as they stand, after a fault; nothing otherwise. -/
def State.diagOk (s : State) : Bool :=
  match s.runState with
  | .haltedOnFault kind => decide (s.diag = [⟨kind, s.os, s.cs⟩])
  | _ => decide (s.diag = [])

/-- At most one comparison flag is true: exactly one after a COMPARE (10_state.md R29), none before the first (R32). -/
def Flags.exclusive (f : Flags) : Bool := !(f.equal && f.less) && !(f.equal && f.greater) && !(f.less && f.greater)

/-- The invariant of the core: the parameters satisfy 00_scope.md R6, `K` is a `u32` (10_state.md R38), both stacks are
within capacity (R44), memory is in its canonical form and lists only cells that exist (R35), the comparison flags
exclude each other (R28), and the diagnostic stream agrees with the run state (R40). -/
structure State.Inv (s : State) : Prop where
  cfg_wf : s.cfg.wf = true
  progLen_u32 : s.progLen ≤ 2 ^ 32 - 1
  sp_le : s.sp ≤ s.cfg.stackCap
  csp_le : s.csp ≤ s.cfg.stackCap
  mem_wf : s.mem.wf = true
  mem_within : s.mem.within s.cfg.memSize = true
  flags_exclusive : s.flags.exclusive = true
  diag_ok : s.diagOk = true

/-- A run state no fault has led to (R34). -/
def State.faultFree (s : State) : Bool :=
  match s.runState with
  | .haltedOnFault _ => false
  | _ => true

/-- The core takes steps (R34). -/
def State.isRunning (s : State) : Bool := decide (s.runState = .running)

/-- `t` is reached from `s` by steps. -/
inductive Reaches : State → State → Prop where
  | refl (s : State) : Reaches s s
  | tail {s t u : State} : Reaches s t → step t = .next u → Reaches s u

/-- The cell an instruction stores to in state `s`, by the address function its meaning uses (44_memory_access.md R171):
none for an instruction that stores nothing, and none where the stack or address check fails. -/
def storesTo (i : Instr) (s : State) : Option Nat :=
  match i with
  | .memSetAbs addr => match s.os with
    | _ :: _ => cellOf s.cfg addr
    | [] => none
  | .memSetIndirect => match s.os with
    | addr :: _ :: _ => cellOf s.cfg addr
    | _ => none
  | .push _ | .memGetAbs _ | .jmp _ | .jmpIfCarry _ | .jmpIfNotCarry _ | .jmpIfEqual _ | .jmpIfNotEqual _
  | .jmpIfLess _ | .jmpIfLessOrEqual _ | .jmpIfGreater _ | .jmpIfGreaterOrEqual _ | .call _
  | .add | .sub | .mul | .divmod | .dup | .swap | .rot3 | .drop | .printNum | .printChar | .dump | .compare
  | .memGetIndirect | .ret | .exit => none

end Sys2Proof.Machine
end

