-- ==== Sys2Proof/Certificates/Slice0/Obligations.lean ====
section
/-! DEFINITION. The statements for the provers. In every statement the operand stack `os` and the call stack `cs` are
written top entry first, and `exec` acts on a state whose `pc` is already the index after the instruction
(spec/40_cycle.md R102). An equation `exec i s = .next { s with … }` says the instruction's whole frame: every component
it does not name is unchanged. -/

open Sys2Proof Sys2Proof.Machine

/-! ### Encoding -/

/-- 30_encoding.md R74 and R72: the opcode map, for every operand value. Derived: the zero-based values are D2, the
ignored operand of format N is D30. -/
def Obligations.OpcodeMapSelectsEachInstruction : Prop :=
  ∀ x : Word,
    decode ⟨0#32, x⟩ = .ok (.push x) ∧ decode ⟨1#32, x⟩ = .ok .add ∧ decode ⟨2#32, x⟩ = .ok .sub ∧
    decode ⟨3#32, x⟩ = .ok .mul ∧ decode ⟨4#32, x⟩ = .ok .divmod ∧ decode ⟨5#32, x⟩ = .ok .dup ∧
    decode ⟨6#32, x⟩ = .ok .swap ∧ decode ⟨7#32, x⟩ = .ok .rot3 ∧ decode ⟨8#32, x⟩ = .ok .drop ∧
    decode ⟨9#32, x⟩ = .ok .printNum ∧ decode ⟨10#32, x⟩ = .ok .printChar ∧ decode ⟨11#32, x⟩ = .ok .dump ∧
    decode ⟨12#32, x⟩ = .ok (.memSetAbs x) ∧ decode ⟨13#32, x⟩ = .ok (.memGetAbs x) ∧
    decode ⟨14#32, x⟩ = .ok .compare ∧ decode ⟨15#32, x⟩ = .ok (.jmp x) ∧
    decode ⟨16#32, x⟩ = .ok (.jmpIfCarry x) ∧ decode ⟨17#32, x⟩ = .ok (.jmpIfNotCarry x) ∧
    decode ⟨18#32, x⟩ = .ok (.jmpIfEqual x) ∧ decode ⟨19#32, x⟩ = .ok (.jmpIfNotEqual x) ∧
    decode ⟨20#32, x⟩ = .ok (.jmpIfLess x) ∧ decode ⟨21#32, x⟩ = .ok (.jmpIfLessOrEqual x) ∧
    decode ⟨22#32, x⟩ = .ok (.jmpIfGreater x) ∧ decode ⟨23#32, x⟩ = .ok (.jmpIfGreaterOrEqual x) ∧
    decode ⟨24#32, x⟩ = .ok .memSetIndirect ∧ decode ⟨25#32, x⟩ = .ok .memGetIndirect ∧
    decode ⟨26#32, x⟩ = .ok (.call x) ∧ decode ⟨27#32, x⟩ = .ok .ret ∧ decode ⟨28#32, x⟩ = .ok .exit

/-- A few record words of 95_test_vectors.md section 2.8 (E1, E3, E8, E9, E10, E5, E6). -/
def Obligations.SampleRecordWordsDecode : Prop :=
  decodeTableWord 64 0x0000004100000000 = some (.push 65) ∧
  decodeTableWord 64 0x000000070000000A = some .printChar ∧
  decodeTableWord 64 0x00FFFFFF0000000D = some (.memGetAbs 16777215) ∧
  decodeTableWord 64 0xFFFFFFFF0000000F = some (.jmp (-1)) ∧
  decodeTableWord 64 0x0000000400000016 = some (.jmpIfGreater 4) ∧
  decodeTableWord 64 0x000000000000001D = none ∧
  decodeTableWord 64 0x00000000FFFFFFFF = none

/-- Decoding the eight image bytes of any instruction gives it back with the bytes after it, at every operand value;
every instruction is well formed. -/
def Obligations.EncodedBytesDecodeToTheInstruction : Prop :=
  ∀ (i : Instr) (rest : List Byte),
    i.wf = true ∧ (encodeBytes i).length = 8 ∧ decodeBytes (encodeBytes i ++ rest) = .ok (i, rest)

/-- The other direction: what decodes is, up to the operand a format-N record ignores, the record the encoder writes
(30_encoding.md R72, D30). -/
def Obligations.DecodedRecordIsTheEncodersUpToIgnoredOperand : Prop :=
  ∀ (r : Record) (i : Instr), decode r = .ok i →
    (i.format = .I → encode i = r) ∧ (i.format = .N → encode i = { r with operand := 0 })

/-- 30_encoding.md R76: decoding fails exactly on an opcode that, read as an `i32`, lies outside `[0, 28]`, and the
error names that opcode. -/
def Obligations.DecodeFailsExactlyOnOpcodesOutsideTheMap : Prop :=
  ∀ r : Record,
    ((∃ i, decode r = .ok i) ↔ 0 ≤ r.opcode.toInt ∧ r.opcode.toInt ≤ 28) ∧
    (¬(0 ≤ r.opcode.toInt ∧ r.opcode.toInt ≤ 28) → decode r = .error (.illegalOpcode r.opcode))

/-! ### The step -/

/-- 40_cycle.md R102 to R104: where the record at `pc` decodes, the step increments `pc` and executes the instruction.
Derived: the unconditional increment is D16. -/
def Obligations.StepRunsTheDecodedInstruction : Prop :=
  ∀ (s : State) (r : Record) (i : Instr),
    s.runState = .running → s.prog[s.pc.toNat]? = some r → decode r = .ok i → i.wf = true →
    step s = exec i { s with pc := s.pc + 1 }

/-- 40_cycle.md R101: the halt check. -/
def Obligations.StepAtOrPastTheEndHaltsNormally : Prop :=
  ∀ s : State, s.runState = .running → s.progLen ≤ s.pc.toNat →
    step s = .next { s with runState := .haltedNormally }

/-- 30_encoding.md R76 and 40_cycle.md R103: a fetched illegal opcode is the fault IllegalInstruction. Derived: that
`pc` is incremented all the same is D16, the order of the report's lists D19. -/
def Obligations.FetchedIllegalOpcodeFaults : Prop :=
  ∀ (s : State) (r : Record),
    s.runState = .running → s.prog[s.pc.toNat]? = some r → ¬(0 ≤ r.opcode.toInt ∧ r.opcode.toInt ≤ 28) →
    step s = .next { s with
      pc := s.pc + 1
      runState := .haltedOnFault .illegalInstruction
      diag := s.diag ++ [⟨.illegalInstruction, s.os, s.cs⟩] }

/-- 40_cycle.md R100 (the spec's own inference) and 60_exceptions.md R235 (D26): a running core always has a step, a
core in a final state never. The name of the stop is the model's (log 6). -/
def Obligations.RunningCoreAlwaysStepsAndFinalStatesNever : Prop :=
  ∀ s : State,
    (s.runState = .running → ∃ t, step s = .next t) ∧
    (s.runState ≠ .running → step s = .fault (.finalState s.runState))

/-- 60_exceptions.md R223, R224 and 40_cycle.md R107: a step that ends in a fault writes `pc`, the run state and one
report, nothing else, and no step follows. Derived: D15, D16, D19. -/
def Obligations.FaultingStepWritesOnlyPcRunStateAndReport : Prop :=
  ∀ (s t : State) (kind : FaultKind), step s = .next t → t.runState = .haltedOnFault kind →
    t = { s with
      pc := s.pc + 1
      runState := .haltedOnFault kind
      diag := s.diag ++ [⟨kind, s.os, s.cs⟩] } ∧
    ∀ u, step t ≠ .next u

/-- The host's aid `withFetchWord` (log 11): the very next step runs the instruction the decoder reads from the word. -/
def Obligations.FetchWordIsTheNextInstructionRun : Prop :=
  ∀ (s : State) (nbits w : Nat) (i : Instr), decodeTableWord nbits w = some i →
    step (s.withFetchWord nbits w) = exec i (s.withFetchWord nbits w).advance ∧
    (s.withFetchWord nbits w).pc = s.pc

/-- 60_exceptions.md R220 (D20) and R229 (D11): the status codes and the exit codes; a rejected load exits nonzero. -/
def Obligations.StatusCodesAndExitCodes : Prop :=
  statusCode none = 0 ∧ statusCode (some .stackOverflow) = 1 ∧ statusCode (some .stackUnderflow) = 2 ∧
  statusCode (some .illegalInstruction) = 3 ∧ statusCode (some .illegalMemoryAccess) = 4 ∧
  statusCode (some .divideError) = 5 ∧
  exitCode .haltedNormally = some 0 ∧ (∀ k, exitCode (.haltedOnFault k) = some 0) ∧
  (∀ c : Word, exitCode (.terminated c) = some c.toInt) ∧ loadFailureExitCode ≠ 0

/-! ### Stack instructions -/

/-- 41_stack.md R120. -/
def Obligations.PushPushesItsOperandOrOverflows : Prop :=
  (∀ x : Word, decode ⟨0#32, x⟩ = .ok (.push x)) ∧
  (∀ (imm : Word) (s : State), s.sp < s.cfg.stackCap → exec (.push imm) s = .next { s with os := imm :: s.os }) ∧
  (∀ (imm : Word) (s : State), s.cfg.stackCap ≤ s.sp → exec (.push imm) s = .next (takeFault .stackOverflow s))

/-- 41_stack.md R121. Derived: the empty-stack case is D8, that its checks exclude each other D24. -/
def Obligations.DupDuplicatesTheTop : Prop :=
  (∀ x : Word, decode ⟨5#32, x⟩ = .ok .dup) ∧
  (∀ (s : State) (v : Word) (rest : List Word), s.os = v :: rest → s.sp < s.cfg.stackCap →
    exec .dup s = .next { s with os := v :: v :: rest }) ∧
  (∀ s : State, s.sp = 0 → exec .dup s = .next (takeFault .stackUnderflow s)) ∧
  (∀ s : State, 0 < s.sp → s.cfg.stackCap ≤ s.sp → exec .dup s = .next (takeFault .stackOverflow s))

/-- 41_stack.md R122. -/
def Obligations.SwapExchangesTheTopTwo : Prop :=
  (∀ x : Word, decode ⟨6#32, x⟩ = .ok .swap) ∧
  (∀ (s : State) (b a : Word) (rest : List Word), s.os = b :: a :: rest →
    exec .swap s = .next { s with os := a :: b :: rest }) ∧
  (∀ s : State, s.sp < 2 → exec .swap s = .next (takeFault .stackUnderflow s))

/-- 41_stack.md R123 under both values of `ROT3_READING`. Derived: the default reading is D17. -/
def Obligations.Rot3UnderBothReadings : Prop :=
  (∀ x : Word, decode ⟨7#32, x⟩ = .ok .rot3) ∧
  (∀ (s : State) (a b c : Word) (rest : List Word), s.os = a :: b :: c :: rest → s.cfg.rot3Reading = .noOp →
    exec .rot3 s = .next s) ∧
  (∀ (s : State) (a b c : Word) (rest : List Word), s.os = a :: b :: c :: rest → s.cfg.rot3Reading = .reverseTop3 →
    exec .rot3 s = .next { s with os := c :: b :: a :: rest }) ∧
  (∀ s : State, s.sp < 3 → exec .rot3 s = .next (takeFault .stackUnderflow s))

/-- 41_stack.md R124. -/
def Obligations.DropDiscardsTheTop : Prop :=
  (∀ x : Word, decode ⟨8#32, x⟩ = .ok .drop) ∧
  (∀ (s : State) (v : Word) (rest : List Word), s.os = v :: rest → exec .drop s = .next { s with os := rest }) ∧
  (∀ s : State, s.sp = 0 → exec .drop s = .next (takeFault .stackUnderflow s))

/-! ### Arithmetic -/

/-- 42_arithmetic.md R141, under either reading of the carry. -/
def Obligations.AddPushesWrappedSumAndWritesCarry : Prop :=
  (∀ x : Word, decode ⟨1#32, x⟩ = .ok .add) ∧
  (∀ (s : State) (b a : Word) (rest : List Word), s.os = b :: a :: rest →
    exec .add s = .next { s with
      os := wrap32 (a.toInt + b.toInt) :: rest
      flags := { s.flags with carry := carryOut s.cfg.carryReading .add (a.toInt + b.toInt) } }) ∧
  (∀ s : State, s.sp < 2 → exec .add s = .next (takeFault .stackUnderflow s))

/-- 42_arithmetic.md R142, under either reading of the carry: the minuend is the entry pushed first. -/
def Obligations.SubPushesWrappedDifferenceAndWritesCarry : Prop :=
  (∀ x : Word, decode ⟨2#32, x⟩ = .ok .sub) ∧
  (∀ (s : State) (b a : Word) (rest : List Word), s.os = b :: a :: rest →
    exec .sub s = .next { s with
      os := wrap32 (a.toInt - b.toInt) :: rest
      flags := { s.flags with carry := carryOut s.cfg.carryReading .sub (a.toInt - b.toInt) } }) ∧
  (∀ s : State, s.sp < 2 → exec .sub s = .next (takeFault .stackUnderflow s))

/-- 42_arithmetic.md R143, under either reading of the carry. -/
def Obligations.MulPushesWrappedProductAndWritesCarry : Prop :=
  (∀ x : Word, decode ⟨3#32, x⟩ = .ok .mul) ∧
  (∀ (s : State) (b a : Word) (rest : List Word), s.os = b :: a :: rest →
    exec .mul s = .next { s with
      os := wrap32 (a.toInt * b.toInt) :: rest
      flags := { s.flags with carry := carryOut s.cfg.carryReading .mul (a.toInt * b.toInt) } }) ∧
  (∀ s : State, s.sp < 2 → exec .mul s = .next (takeFault .stackUnderflow s))

/-- 42_arithmetic.md R140 and 00_scope.md R9. `wrap32(x)` is congruent to `x` modulo `2^32`; under SignedRange the carry
says that it differs from `x`; under Directional it says that `x` lies past the bound of its operation. Derived: both
readings and the default are D4. -/
def Obligations.CarryMeansTheWrappedResultDiffers : Prop :=
  (∀ x : Int, (2 ^ 32 : Int) ∣ (wrap32 x).toInt - x) ∧
  (∀ (op : AluOp) (x : Int), carryOut .signedRange op x = true ↔ (wrap32 x).toInt ≠ x) ∧
  (∀ x : Int, (carryOut .directional .add x = true ↔ 2 ^ 31 ≤ x) ∧ (carryOut .directional .mul x = true ↔ 2 ^ 31 ≤ x) ∧
    (carryOut .directional .sub x = true ↔ x < -2 ^ 31)) ∧
  (∀ (op : AluOp) (x : Int), carryOut .directional op x = true → carryOut .signedRange op x = true)

/-- 42_arithmetic.md R144. Derived: the divisor check is D6 and D7, the rounding D5, the order of checks D15. -/
def Obligations.DivmodPushesRemainderThenQuotient : Prop :=
  (∀ x : Word, decode ⟨4#32, x⟩ = .ok .divmod) ∧
  (∀ (s : State) (b a : Word) (rest : List Word), s.os = b :: a :: rest →
    b.toInt ≠ 0 → ¬(a.toInt = -2 ^ 31 ∧ b.toInt = -1) →
    exec .divmod s = .next { s with
      os := wrap32 (truncDiv a.toInt b.toInt) :: wrap32 (truncRem a.toInt b.toInt) :: rest }) ∧
  (∀ (s : State) (b a : Word) (rest : List Word), s.os = b :: a :: rest →
    (b.toInt = 0 ∨ (a.toInt = -2 ^ 31 ∧ b.toInt = -1)) → exec .divmod s = .next (takeFault .divideError s)) ∧
  (∀ s : State, s.sp < 2 → exec .divmod s = .next (takeFault .stackUnderflow s))

/-- 42_arithmetic.md R146 (the spec's own inference from R144, D5): the two entries DIVMOD leaves satisfy
`a = b*q + r`, `|r| < |b|`, and the remainder has the dividend's sign. -/
def Obligations.DivmodQuotientAndRemainderLaws : Prop :=
  ∀ (s : State) (b a : Word) (rest : List Word), s.os = b :: a :: rest →
    b.toInt ≠ 0 → ¬(a.toInt = -2 ^ 31 ∧ b.toInt = -1) →
    ∃ q r : Word, exec .divmod s = .next { s with os := q :: r :: rest } ∧
      a.toInt = b.toInt * q.toInt + r.toInt ∧ r.toInt.natAbs < b.toInt.natAbs ∧
      (r.toInt = 0 ∨ (0 < r.toInt ∧ 0 < a.toInt) ∨ (r.toInt < 0 ∧ a.toInt < 0))

/-- 42_arithmetic.md R145 (the spec's own inference from R141 and R142): subtracting `b` after adding it restores `a`,
and exchanging the operands changes neither the result nor the carry of ADD and MUL. -/
def Obligations.AddThenSubRestoresAndAddMulCommute : Prop :=
  (∀ (s t u : State) (b a : Word) (rest : List Word), s.os = b :: a :: rest →
    exec .add s = .next t → exec (.push b) t = .next u → u.os = b :: t.os →
    ∃ v, exec .sub u = .next v ∧ v.os = a :: rest) ∧
  (∀ (s : State) (b a : Word) (rest : List Word), s.os = b :: a :: rest →
    exec .add { s with os := a :: b :: rest } = exec .add s ∧
    exec .mul { s with os := a :: b :: rest } = exec .mul s)

/-! ### Output -/

/-- 43_output.md R161. -/
def Obligations.PrintNumEmitsTheTop : Prop :=
  (∀ x : Word, decode ⟨9#32, x⟩ = .ok .printNum) ∧
  (∀ (s : State) (v : Word) (rest : List Word), s.os = v :: rest →
    exec .printNum s = .next { s with os := rest, out := s.out ++ [.num v] }) ∧
  (∀ s : State, s.sp = 0 → exec .printNum s = .next (takeFault .stackUnderflow s))

/-- 43_output.md R162: the emitted byte is the popped value modulo 256, printed as that one byte, no newline. -/
def Obligations.PrintCharEmitsTheLowByte : Prop :=
  (∀ x : Word, decode ⟨10#32, x⟩ = .ok .printChar) ∧
  (∀ (s : State) (v : Word) (rest : List Word), s.os = v :: rest →
    exec .printChar s = .next { s with os := rest, out := s.out ++ [.char (BitVec.ofNat 8 (v.toNat % 256))] }) ∧
  (∀ s : State, s.sp = 0 → exec .printChar s = .next (takeFault .stackUnderflow s)) ∧
  (∀ c : Byte, renderEvent (.char c) = [c])

/-- 43_output.md R163: `OS[sp-1]` down to `OS[0]`, from every state. Derived: that what an empty stack prints contains the
text `[empty]`, with free bytes before and after it, is D18 and the model's choice of log 9. -/
def Obligations.DumpEmitsTheWholeStackTopFirst : Prop :=
  (∀ x : Word, decode ⟨11#32, x⟩ = .ok .dump) ∧
  (∀ s : State, ∃ vs : List Word, exec .dump s = .next { s with out := s.out ++ [.dump vs] } ∧ vs.length = s.sp ∧
    ∀ k, k < s.sp → vs[k]? = s.osEntry (s.sp - 1 - k)) ∧
  (∃ pre post : List Byte, renderEvent (.dump []) = pre ++ [0x5B#8, 0x65#8, 0x6D#8, 0x70#8, 0x74#8, 0x79#8, 0x5D#8] ++ post)

/-- 43_output.md R160: the rendering of `Num(v)`: decimal digits of `|v|`, a minus sign when negative, no leading zero,
one newline byte. Derived: the format is the spec's general knowledge (K4, K5; log 13). -/
def Obligations.NumRendersAsShortestDecimalAndNewline : Prop :=
  ∀ v : Word, ∃ ds : List Nat,
    ds ≠ [] ∧ (∀ d ∈ ds, d < 10) ∧ (ds.head? = some 0 → ds = [0]) ∧
    ds.foldl (fun n d => 10 * n + d) 0 = v.toInt.natAbs ∧
    renderEvent (.num v) =
      (if v.toInt < 0 then [0x2D#8] else []) ++ ds.map (fun d => BitVec.ofNat 8 (48 + d)) ++ [0x0A#8]

/-! ### Memory -/

/-- 44_memory_access.md R172. Derived: the order of the two checks is D15. -/
def Obligations.MemSetAbsStoresTheTop : Prop :=
  (∀ x : Word, decode ⟨12#32, x⟩ = .ok (.memSetAbs x)) ∧
  (∀ (s : State) (addr v : Word) (rest : List Word), s.os = v :: rest →
    0 ≤ addr.toInt → addr.toInt < (s.cfg.memSize : Int) →
    exec (.memSetAbs addr) s = .next { s with os := rest, mem := s.mem.write addr.toInt.toNat v }) ∧
  (∀ (s : State) (addr : Word), 0 < s.sp → ¬(0 ≤ addr.toInt ∧ addr.toInt < (s.cfg.memSize : Int)) →
    exec (.memSetAbs addr) s = .next (takeFault .illegalMemoryAccess s)) ∧
  (∀ (s : State) (addr : Word), s.sp = 0 → exec (.memSetAbs addr) s = .next (takeFault .stackUnderflow s))

/-- 44_memory_access.md R173. Derived: the order of the two checks is D15. -/
def Obligations.MemGetAbsPushesTheCell : Prop :=
  (∀ x : Word, decode ⟨13#32, x⟩ = .ok (.memGetAbs x)) ∧
  (∀ (s : State) (addr : Word), s.sp < s.cfg.stackCap → 0 ≤ addr.toInt → addr.toInt < (s.cfg.memSize : Int) →
    exec (.memGetAbs addr) s = .next { s with os := s.readCell addr.toInt.toNat :: s.os }) ∧
  (∀ (s : State) (addr : Word), s.sp < s.cfg.stackCap → ¬(0 ≤ addr.toInt ∧ addr.toInt < (s.cfg.memSize : Int)) →
    exec (.memGetAbs addr) s = .next (takeFault .illegalMemoryAccess s)) ∧
  (∀ (s : State) (addr : Word), s.cfg.stackCap ≤ s.sp →
    exec (.memGetAbs addr) s = .next (takeFault .stackOverflow s))

/-- 44_memory_access.md R174: the address is on top, the value below it. Derived: the bounds check is D9. -/
def Obligations.MemSetIndirectStoresTheSecondAtTheTop : Prop :=
  (∀ x : Word, decode ⟨24#32, x⟩ = .ok .memSetIndirect) ∧
  (∀ (s : State) (addr v : Word) (rest : List Word), s.os = addr :: v :: rest →
    0 ≤ addr.toInt → addr.toInt < (s.cfg.memSize : Int) →
    exec .memSetIndirect s = .next { s with os := rest, mem := s.mem.write addr.toInt.toNat v }) ∧
  (∀ (s : State) (addr v : Word) (rest : List Word), s.os = addr :: v :: rest →
    ¬(0 ≤ addr.toInt ∧ addr.toInt < (s.cfg.memSize : Int)) →
    exec .memSetIndirect s = .next (takeFault .illegalMemoryAccess s)) ∧
  (∀ s : State, s.sp < 2 → exec .memSetIndirect s = .next (takeFault .stackUnderflow s))

/-- 44_memory_access.md R175: the cell's value replaces the address, with no capacity check. Derived: the bounds check
is D9. -/
def Obligations.MemGetIndirectReplacesTheAddress : Prop :=
  (∀ x : Word, decode ⟨25#32, x⟩ = .ok .memGetIndirect) ∧
  (∀ (s : State) (addr : Word) (rest : List Word), s.os = addr :: rest →
    0 ≤ addr.toInt → addr.toInt < (s.cfg.memSize : Int) →
    exec .memGetIndirect s = .next { s with os := s.readCell addr.toInt.toNat :: rest }) ∧
  (∀ (s : State) (addr : Word) (rest : List Word), s.os = addr :: rest →
    ¬(0 ≤ addr.toInt ∧ addr.toInt < (s.cfg.memSize : Int)) →
    exec .memGetIndirect s = .next (takeFault .illegalMemoryAccess s)) ∧
  (∀ s : State, s.sp = 0 → exec .memGetIndirect s = .next (takeFault .stackUnderflow s))

/-- The memory frame of all 29 instructions, faulting or not (44_memory_access.md R172 to R175, 10_state.md R43): every
cell but the one `storesTo` computes, with the address function the meanings use, reads as before, and the cell stored to
reads as the value popped. The premise on the form of memory is part of the invariant `State.Inv`. -/
def Obligations.InstructionsStoreOnlyToTheComputedCell : Prop :=
  ∀ (i : Instr) (s t : State), exec i s = .next t →
    (∀ a : Nat, storesTo i s ≠ some a → t.readCell a = s.readCell a) ∧
    (∀ (addr v : Word) (rest : List Word) (a : Nat), s.mem.wf = true → i = .memSetAbs addr → s.os = v :: rest →
      cellOf s.cfg addr = some a → storesTo i s = some a ∧ t.readCell a = v) ∧
    (∀ (addr v : Word) (rest : List Word) (a : Nat), s.mem.wf = true → i = .memSetIndirect → s.os = addr :: v :: rest →
      cellOf s.cfg addr = some a → storesTo i s = some a ∧ t.readCell a = v)

/-- 20_memory.md R52 and R57 on the model's memory: a read after a write, and the canonical form is kept (log 1). -/
def Obligations.MemoryReadsTheLastValueWritten : Prop :=
  ∀ (m : Memory) (a a' : Nat) (v : Word), m.wf = true →
    (m.write a v).wf = true ∧ (m.write a v).read a' = if a' = a then v else m.read a'

/-- The canonical form is canonical (log 1): memories that read alike everywhere are equal data. -/
def Obligations.EqualReadsMeanEqualMemories : Prop :=
  ∀ m m' : Memory, m.wf = true → m'.wf = true → (∀ a, m.read a = m'.read a) → m = m'

/-- 00_scope.md R6 (D24): with `MEM_SIZE <= 2^31` an `i32` can name every cell. -/
def Obligations.EveryCellHasAnAddress : Prop :=
  ∀ (c : Config) (a : Nat), c.wf = true → a < c.memSize → cellOf c (BitVec.ofNat 32 a) = some a

/-! ### Comparison, branches, calls, exit -/

/-- 45_compare_branch.md R190. Derived: that the comparison is signed is the spec's own inference from R7. -/
def Obligations.CompareWritesTheThreeFlags : Prop :=
  (∀ x : Word, decode ⟨14#32, x⟩ = .ok .compare) ∧
  (∀ (s : State) (b a : Word) (rest : List Word), s.os = b :: a :: rest →
    exec .compare s = .next { s with
      os := rest
      flags := ⟨decide (a = b), decide (a.toInt < b.toInt), decide (b.toInt < a.toInt), s.flags.carry⟩ }) ∧
  (∀ s : State, s.sp < 2 → exec .compare s = .next (takeFault .stackUnderflow s))

/-- 45_compare_branch.md R192. -/
def Obligations.JmpSetsPcToItsOperand : Prop :=
  (∀ x : Word, decode ⟨15#32, x⟩ = .ok (.jmp x)) ∧
  (∀ (x : Word) (s : State), exec (.jmp x) s = .next { s with pc := x })

/-- 45_compare_branch.md R193 to R197, R199 and R200, from every state and for every target. -/
def Obligations.ConditionalJumpsFollowTheirFlags : Prop :=
  ∀ (x : Word) (s : State),
    (decode ⟨16#32, x⟩ = .ok (.jmpIfCarry x) ∧
      exec (.jmpIfCarry x) s = .next (if s.flags.carry = true then { s with pc := x } else s)) ∧
    (decode ⟨17#32, x⟩ = .ok (.jmpIfNotCarry x) ∧
      exec (.jmpIfNotCarry x) s = .next (if s.flags.carry = true then s else { s with pc := x })) ∧
    (decode ⟨18#32, x⟩ = .ok (.jmpIfEqual x) ∧
      exec (.jmpIfEqual x) s = .next (if s.flags.equal = true then { s with pc := x } else s)) ∧
    (decode ⟨19#32, x⟩ = .ok (.jmpIfNotEqual x) ∧
      exec (.jmpIfNotEqual x) s = .next (if s.flags.equal = true then s else { s with pc := x })) ∧
    (decode ⟨20#32, x⟩ = .ok (.jmpIfLess x) ∧
      exec (.jmpIfLess x) s = .next (if s.flags.less = true then { s with pc := x } else s)) ∧
    (decode ⟨22#32, x⟩ = .ok (.jmpIfGreater x) ∧
      exec (.jmpIfGreater x) s = .next (if s.flags.greater = true then { s with pc := x } else s)) ∧
    (decode ⟨23#32, x⟩ = .ok (.jmpIfGreaterOrEqual x) ∧
      exec (.jmpIfGreaterOrEqual x) s =
        .next (if s.flags.greater = true ∨ s.flags.equal = true then { s with pc := x } else s))

/-- 45_compare_branch.md R198, and its corner case (the spec's own inference): after a COMPARE, `L or E` is `not G` and
`G or E` is `not L`; with the three flags false neither branch is taken. -/
def Obligations.OrEqualJumpsAfterCompare : Prop :=
  (∀ (x : Word) (s : State), decode ⟨21#32, x⟩ = .ok (.jmpIfLessOrEqual x) ∧
    exec (.jmpIfLessOrEqual x) s =
      .next (if s.flags.less = true ∨ s.flags.equal = true then { s with pc := x } else s)) ∧
  (∀ (x : Word) (s t : State) (b a : Word) (rest : List Word), s.os = b :: a :: rest → exec .compare s = .next t →
    exec (.jmpIfLessOrEqual x) t = .next (if b.toInt < a.toInt then t else { t with pc := x }) ∧
    exec (.jmpIfGreaterOrEqual x) t = .next (if a.toInt < b.toInt then t else { t with pc := x })) ∧
  (∀ (x : Word) (s : State), s.flags.equal = false → s.flags.less = false → s.flags.greater = false →
    exec (.jmpIfLessOrEqual x) s = .next s ∧ exec (.jmpIfGreaterOrEqual x) s = .next s)

/-- 46_call_return_exit.md R210. -/
def Obligations.CallPushesThePcAndJumps : Prop :=
  (∀ x : Word, decode ⟨26#32, x⟩ = .ok (.call x)) ∧
  (∀ (x : Word) (s : State), s.csp < s.cfg.stackCap →
    exec (.call x) s = .next { s with cs := s.pc :: s.cs, pc := x }) ∧
  (∀ (x : Word) (s : State), s.cfg.stackCap ≤ s.csp → exec (.call x) s = .next (takeFault .stackOverflow s))

/-- 46_call_return_exit.md R211, and its corner case (the spec's own inference): a RETURN whenever the call stack is
again as the CALL left it resumes at the record after the CALL. -/
def Obligations.ReturnPopsThePcAndUndoesCall : Prop :=
  (∀ x : Word, decode ⟨27#32, x⟩ = .ok .ret) ∧
  (∀ (s : State) (v : Index) (rest : List Index), s.cs = v :: rest →
    exec .ret s = .next { s with cs := rest, pc := v }) ∧
  (∀ s : State, s.csp = 0 → exec .ret s = .next (takeFault .stackUnderflow s)) ∧
  (∀ (x : Word) (s t u : State), s.csp < s.cfg.stackCap → exec (.call x) s = .next t → u.cs = t.cs →
    exec .ret u = .next { u with cs := s.cs, pc := s.pc })

/-- 46_call_return_exit.md R212. -/
def Obligations.ExitTerminatesWithTheTopOrZero : Prop :=
  (∀ x : Word, decode ⟨28#32, x⟩ = .ok .exit) ∧
  (∀ (s : State) (v : Word) (rest : List Word), s.os = v :: rest →
    exec .exit s = .next { s with os := rest, runState := .terminated v }) ∧
  (∀ s : State, s.sp = 0 → exec .exit s = .next { s with runState := .terminated 0 })

/-! ### Rules about the whole machine -/

/-- 10_state.md R29: `E`, `L` and `G` are written only by COMPARE, all three, exactly one true, and by no fault. -/
def Obligations.ComparisonFlagsAreWrittenOnlyByCompare : Prop :=
  (∀ s t : State, step s = .next t →
    (t.flags.equal = s.flags.equal ∧ t.flags.less = s.flags.less ∧ t.flags.greater = s.flags.greater) ∨
    (t.runState = .running ∧ ∃ r, fetch s = some r ∧ decode r = .ok .compare)) ∧
  (∀ (s t : State) (r : Record), fetch s = some r → decode r = .ok .compare → step s = .next t →
    t.runState = .running →
    (t.flags.equal = true ∧ t.flags.less = false ∧ t.flags.greater = false) ∨
    (t.flags.equal = false ∧ t.flags.less = true ∧ t.flags.greater = false) ∨
    (t.flags.equal = false ∧ t.flags.less = false ∧ t.flags.greater = true))

/-- 10_state.md R30: `C` is written only by ADD, SUB and MUL, on every execution that does not fault. -/
def Obligations.CarryIsWrittenOnlyByAddSubMul : Prop :=
  (∀ s t : State, step s = .next t →
    t.flags.carry = s.flags.carry ∨
    (t.runState = .running ∧ ∃ r, fetch s = some r ∧
      (decode r = .ok .add ∨ decode r = .ok .sub ∨ decode r = .ok .mul))) ∧
  (∀ (s t : State) (r : Record), fetch s = some r → step s = .next t → t.runState = .running →
    ∀ (b a : Word) (rest : List Word), s.os = b :: a :: rest →
      (decode r = .ok .add → t.flags.carry = carryOut s.cfg.carryReading .add (a.toInt + b.toInt)) ∧
      (decode r = .ok .sub → t.flags.carry = carryOut s.cfg.carryReading .sub (a.toInt - b.toInt)) ∧
      (decode r = .ok .mul → t.flags.carry = carryOut s.cfg.carryReading .mul (a.toInt * b.toInt)))

/-- 10_state.md R31. With the flags `f` in the place of a state's own, an instruction that neither jumps on a condition
nor writes a flag does the same and leaves `f`, faulting or not; ADD, SUB and MUL do the same and leave `f` with the same
carry written over it; COMPARE does the same and leaves the same comparison flags over the carry of `f`; where one of
these four lacks an operand, it faults and leaves `f`; a halt and an illegal opcode do the same and leave `f`. A conditional jump lets a
flag decide only whether its operand goes to `pc`. -/
def Obligations.FlagsAreReadOnlyByConditionalJumps : Prop :=
  (∀ (i : Instr) (s t : State) (f : Flags),
    (∀ x, i ≠ .jmpIfCarry x ∧ i ≠ .jmpIfNotCarry x ∧ i ≠ .jmpIfEqual x ∧ i ≠ .jmpIfNotEqual x ∧ i ≠ .jmpIfLess x ∧
      i ≠ .jmpIfLessOrEqual x ∧ i ≠ .jmpIfGreater x ∧ i ≠ .jmpIfGreaterOrEqual x) →
    i ≠ .add → i ≠ .sub → i ≠ .mul → i ≠ .compare →
    exec i s = .next t → exec i { s with flags := f } = .next { t with flags := f }) ∧
  (∀ (i : Instr) (s t : State) (f : Flags), (i = .add ∨ i = .sub ∨ i = .mul) → exec i s = .next t →
    exec i { s with flags := f } =
      .next { t with flags := if s.sp < 2 then f else { f with carry := t.flags.carry } }) ∧
  (∀ (s t : State) (f : Flags), exec .compare s = .next t →
    exec .compare { s with flags := f } =
      .next { t with flags := if s.sp < 2 then f else { t.flags with carry := f.carry } }) ∧
  (∀ (s t : State) (f : Flags), (∀ r i, fetch s = some r → decode r ≠ .ok i) → step s = .next t →
    step { s with flags := f } = .next { t with flags := f }) ∧
  (∀ (i : Instr) (s : State) (x : Word) (f : Flags),
    (i = .jmpIfCarry x ∨ i = .jmpIfNotCarry x ∨ i = .jmpIfEqual x ∨ i = .jmpIfNotEqual x ∨ i = .jmpIfLess x ∨
      i = .jmpIfLessOrEqual x ∨ i = .jmpIfGreater x ∨ i = .jmpIfGreaterOrEqual x) →
    exec i { s with flags := f } = .next { s with flags := f, pc := x } ∨
    exec i { s with flags := f } = .next { s with flags := f })

/-- 10_state.md R36: outside the four memory instructions a step neither writes nor reads the data memory, the fetch
never reads it, and the load preloads it. -/
def Obligations.OnlyMemoryInstructionsReachTheMemory : Prop :=
  (∀ (s t : State) (m : Memory),
    (∀ r i, fetch s = some r → decode r = .ok i →
      (∀ a, i ≠ .memSetAbs a ∧ i ≠ .memGetAbs a) ∧ i ≠ .memSetIndirect ∧ i ≠ .memGetIndirect) →
    step s = .next t → t.mem = s.mem ∧ step { s with mem := m } = .next { t with mem := m }) ∧
  (∀ (s : State) (m : Memory), fetch { s with mem := m } = fetch s) ∧
  (∀ (c : Config) (p : Loaded) (a : Nat) (w : Word), p.image[a]? = some w → (bootState c p).readCell a = w)

/-- 10_state.md R37: no instruction writes the program store or reads a record as data, and no step writes it. -/
def Obligations.ProgramStoreIsReadOnlyByTheFetch : Prop :=
  (∀ (i : Instr) (s t : State) (p : List Record), exec i s = .next t →
    t.prog = s.prog ∧ exec i { s with prog := p } = .next { t with prog := p }) ∧
  (∀ s t : State, Reaches s t → t.prog = s.prog)

/-- 10_state.md R26 and R27: after an instruction `pc` is the next index, unless a control transfer wrote its operand or,
for RETURN, the top of the call stack; in a good state the increment does not wrap. Derived: the width is D10. -/
def Obligations.PcIsTheNextIndexUnlessAControlTransferWroteIt : Prop :=
  (∀ (s t : State) (r : Record) (i : Instr), fetch s = some r → decode r = .ok i → step s = .next t →
    t.pc = s.pc + 1 ∨
    (∃ x, (i = .jmp x ∨ i = .jmpIfCarry x ∨ i = .jmpIfNotCarry x ∨ i = .jmpIfEqual x ∨ i = .jmpIfNotEqual x ∨
      i = .jmpIfLess x ∨ i = .jmpIfLessOrEqual x ∨ i = .jmpIfGreater x ∨ i = .jmpIfGreaterOrEqual x ∨ i = .call x) ∧
      t.pc = x) ∨
    (i = .ret ∧ s.cs.head? = some t.pc)) ∧
  (∀ (s : State) (r : Record), s.Inv → fetch s = some r → (s.pc + 1).toNat = s.pc.toNat + 1)

/-- 10_state.md R24: only CALL pushes to the call stack, the index after itself, and only RETURN pops from it, into `pc`. -/
def Obligations.CallStackChangesOnlyByCallAndReturn : Prop :=
  ∀ s t : State, step s = .next t →
    t.cs = s.cs ∨
    (∃ r x, fetch s = some r ∧ decode r = .ok (.call x) ∧ t.cs = (s.pc + 1) :: s.cs ∧ t.pc = x) ∨
    (∃ r, fetch s = some r ∧ decode r = .ok .ret ∧ s.cs = t.pc :: t.cs)

/-- 10_state.md R39: the console stream only grows at its end, by one event at a time, only by the three output
instructions, and nothing inside the core reads it: a core with another stream does the same and appends the same. -/
def Obligations.ConsoleStreamIsAppendOnlyAndNeverRead : Prop :=
  ∀ s t : State, step s = .next t →
    ∃ es : List ConsoleEvent, t.out = s.out ++ es ∧
      (es = [] ∨ ∃ r e, fetch s = some r ∧ es = [e] ∧
        (decode r = .ok .printNum ∨ decode r = .ok .printChar ∨ decode r = .ok .dump)) ∧
      ∀ o : List ConsoleEvent, step { s with out := o } = .next { t with out := o ++ es }

/-! ### Invariants -/

/-- From every state that meets the invariant, reachable or not, a step leads to one that meets it. -/
def Obligations.EveryStepKeepsTheInvariant : Prop :=
  ∀ s t : State, s.Inv → step s = .next t → t.Inv

/-- The reset state meets the invariant (10_state.md R42). -/
def Obligations.ResetStateMeetsTheInvariant : Prop := State.reset.Inv

/-- Every image the loader accepts boots into a running state that meets the invariant (70_reset_and_hazards.md R250). -/
def Obligations.AcceptedImageBootsIntoAGoodRunningState : Prop :=
  ∀ (c : Config) (bytes : List Byte) (s : State), c.wf = true → boot c bytes = .ok s →
    s.Inv ∧ s.runState = .running ∧ s.cfg = c

/-- 10_state.md R44, over every state reachable from the boot of any program that fits, for any parameters. -/
def Obligations.ReachableStacksStayWithinCapacity : Prop :=
  ∀ (c : Config) (p : Loaded) (s : State), c.wf = true → loadFits c p.prog p.image = true →
    Reaches (bootState c p) s → 0 ≤ s.sp ∧ s.sp ≤ c.stackCap ∧ 0 ≤ s.csp ∧ s.csp ≤ c.stackCap

/-! ### Load -/

/-- 30_encoding.md R79: the image of a program and a preload loads back, with up to three trailing bytes ignored. -/
def Obligations.ImageOfAProgramLoadsBack : Prop :=
  ∀ (c : Config) (p : Loaded) (tail : List Byte), loadFits c p.prog p.image = true → tail.length < 4 →
    loadImage c (imageBytes p ++ tail) = .ok p

/-- 30_encoding.md R80 to R82 (D3, D21): the loader accepts an image exactly when it begins with the magic's bytes, has a
complete header and complete records, and its preload fits. It looks at no record. -/
def Obligations.LoaderAcceptsExactlyTheCompleteImages : Prop :=
  ∀ (c : Config) (bytes : List Byte),
    let k := (wordOfBytes (bytes.getD 4 0) (bytes.getD 5 0) (bytes.getD 6 0) (bytes.getD 7 0)).toNat
    (∃ p, loadImage c bytes = .ok p) ↔
      bytes.take 4 = [0x43#8, 0x53#8, 0x56#8, 0x00#8] ∧ 8 ≤ bytes.length ∧ 8 + 8 * k ≤ bytes.length ∧
      (bytes.length - 8 - 8 * k) / 4 ≤ c.memSize

/-- 30_encoding.md R77 and R79 (D3): record `i` comes from offset `8 + 8*i`, preload word `j` from `8 + 8*K + 4*j`. -/
def Obligations.LoadedRecordsAndWordsComeFromTheirOffsets : Prop :=
  ∀ (c : Config) (bytes : List Byte) (p : Loaded), loadImage c bytes = .ok p →
    let wordAt := fun o : Nat =>
      wordOfBytes (bytes.getD o 0) (bytes.getD (o + 1) 0) (bytes.getD (o + 2) 0) (bytes.getD (o + 3) 0)
    let k := (wordAt 4).toNat
    p.prog.length = k ∧
    (∀ i, i < k → p.prog[i]? = some ⟨wordAt (8 + 8 * i), wordAt (12 + 8 * i)⟩) ∧
    p.image.length = (bytes.length - 8 - 8 * k) / 4 ∧
    (∀ j, j < p.image.length → p.image[j]? = some (wordAt (8 + 8 * k + 4 * j)))

/-- 10_state.md R42 and 70_reset_and_hazards.md R250: the state in which a run begins. Derived: D12, D13, D14. -/
def Obligations.BootStateHoldsTheResetValues : Prop :=
  ∀ (c : Config) (p : Loaded),
    (bootState c p).sp = 0 ∧ (bootState c p).csp = 0 ∧ (bootState c p).pc = 0 ∧
    (bootState c p).flags = ⟨false, false, false, false⟩ ∧ (bootState c p).runState = .running ∧
    (bootState c p).out = [] ∧ (bootState c p).diag = [] ∧ (bootState c p).prog = p.prog ∧ (bootState c p).cfg = c ∧
    (∀ a, (bootState c p).readCell a = p.image.getD a 0) ∧ bootState Config.standard ⟨[], []⟩ = State.reset
end

