-- ==== Sys2Proof/Laws/Bytes.lean ====
section
/-! SUPPORT. Fields, records and their bytes (spec/30_encoding.md R71, 20_memory.md R54). -/

namespace Sys2Proof

/-- The four little-endian bytes of a field give the field back. -/
theorem wordOfBytes_extract (w : Word) :
    wordOfBytes (w.extractLsb' 0 8) (w.extractLsb' 8 8) (w.extractLsb' 16 8) (w.extractLsb' 24 8) = w := by
  unfold wordOfBytes
  ext i hi
  simp only [BitVec.getElem_append, BitVec.getElem_extractLsb']
  split
  · simp [BitVec.getLsbD_eq_getElem, hi]
  · split
    · have : 8 + (i - 8) = i := by omega
      simp [this, BitVec.getLsbD_eq_getElem, hi]
    · split
      · have : 16 + (i - 8 - 8) = i := by omega
        simp [this, BitVec.getLsbD_eq_getElem, hi]
      · have : 24 + (i - 8 - 8 - 8) = i := by omega
        simp [this, BitVec.getLsbD_eq_getElem, hi]

/-- The eight bytes of a record give the record back, whatever follows them. -/
theorem recordOfBytes_recordBytes (r : Record) (rest : List Byte) :
    recordOfBytes (recordBytes r ++ rest) = some (r, rest) := by
  simp only [recordBytes, wordBytes, List.cons_append, List.nil_append, recordOfBytes, wordOfBytes_extract]

/-- A record takes eight bytes. -/
theorem length_recordBytes (r : Record) : (recordBytes r).length = 8 := rfl

/-- The record word `Wd` gives the record back. -/
theorem Record.ofWd_toWd (r : Record) : Record.ofWd r.toWd = r := by
  obtain ⟨op, x⟩ := r
  simp only [Record.ofWd, Record.toWd, Record.mk.injEq]
  constructor
  · exact BitVec.extractLsb'_append_eq_right
  · exact BitVec.extractLsb'_append_eq_left

end Sys2Proof
end

