-- ==== Sys2Proof/Laws/State.lean ====
section
/-! SUPPORT. One lemma per field per update of the state: what each named update writes and what it keeps. -/

namespace Sys2Proof.Machine

@[simp] theorem State.setOs_cfg (s : State) (x : List Word) : (s.setOs x).cfg = s.cfg := rfl
@[simp] theorem State.setOs_prog (s : State) (x : List Word) : (s.setOs x).prog = s.prog := rfl
@[simp] theorem State.setOs_os (s : State) (x : List Word) : (s.setOs x).os = x := rfl
@[simp] theorem State.setOs_cs (s : State) (x : List Word) : (s.setOs x).cs = s.cs := rfl
@[simp] theorem State.setOs_mem (s : State) (x : List Word) : (s.setOs x).mem = s.mem := rfl
@[simp] theorem State.setOs_pc (s : State) (x : List Word) : (s.setOs x).pc = s.pc := rfl
@[simp] theorem State.setOs_flags (s : State) (x : List Word) : (s.setOs x).flags = s.flags := rfl
@[simp] theorem State.setOs_runState (s : State) (x : List Word) : (s.setOs x).runState = s.runState := rfl
@[simp] theorem State.setOs_out (s : State) (x : List Word) : (s.setOs x).out = s.out := rfl
@[simp] theorem State.setOs_diag (s : State) (x : List Word) : (s.setOs x).diag = s.diag := rfl

@[simp] theorem State.setCs_cfg (s : State) (x : List Index) : (s.setCs x).cfg = s.cfg := rfl
@[simp] theorem State.setCs_prog (s : State) (x : List Index) : (s.setCs x).prog = s.prog := rfl
@[simp] theorem State.setCs_os (s : State) (x : List Index) : (s.setCs x).os = s.os := rfl
@[simp] theorem State.setCs_cs (s : State) (x : List Index) : (s.setCs x).cs = x := rfl
@[simp] theorem State.setCs_mem (s : State) (x : List Index) : (s.setCs x).mem = s.mem := rfl
@[simp] theorem State.setCs_pc (s : State) (x : List Index) : (s.setCs x).pc = s.pc := rfl
@[simp] theorem State.setCs_flags (s : State) (x : List Index) : (s.setCs x).flags = s.flags := rfl
@[simp] theorem State.setCs_runState (s : State) (x : List Index) : (s.setCs x).runState = s.runState := rfl
@[simp] theorem State.setCs_out (s : State) (x : List Index) : (s.setCs x).out = s.out := rfl
@[simp] theorem State.setCs_diag (s : State) (x : List Index) : (s.setCs x).diag = s.diag := rfl

@[simp] theorem State.push_cfg (s : State) (v : Word) : (s.push v).cfg = s.cfg := rfl
@[simp] theorem State.push_prog (s : State) (v : Word) : (s.push v).prog = s.prog := rfl
@[simp] theorem State.push_os (s : State) (v : Word) : (s.push v).os = v :: s.os := rfl
@[simp] theorem State.push_cs (s : State) (v : Word) : (s.push v).cs = s.cs := rfl
@[simp] theorem State.push_mem (s : State) (v : Word) : (s.push v).mem = s.mem := rfl
@[simp] theorem State.push_pc (s : State) (v : Word) : (s.push v).pc = s.pc := rfl
@[simp] theorem State.push_flags (s : State) (v : Word) : (s.push v).flags = s.flags := rfl
@[simp] theorem State.push_runState (s : State) (v : Word) : (s.push v).runState = s.runState := rfl
@[simp] theorem State.push_out (s : State) (v : Word) : (s.push v).out = s.out := rfl
@[simp] theorem State.push_diag (s : State) (v : Word) : (s.push v).diag = s.diag := rfl

@[simp] theorem State.cpush_cfg (s : State) (v : Index) : (s.cpush v).cfg = s.cfg := rfl
@[simp] theorem State.cpush_prog (s : State) (v : Index) : (s.cpush v).prog = s.prog := rfl
@[simp] theorem State.cpush_os (s : State) (v : Index) : (s.cpush v).os = s.os := rfl
@[simp] theorem State.cpush_cs (s : State) (v : Index) : (s.cpush v).cs = v :: s.cs := rfl
@[simp] theorem State.cpush_mem (s : State) (v : Index) : (s.cpush v).mem = s.mem := rfl
@[simp] theorem State.cpush_pc (s : State) (v : Index) : (s.cpush v).pc = s.pc := rfl
@[simp] theorem State.cpush_flags (s : State) (v : Index) : (s.cpush v).flags = s.flags := rfl
@[simp] theorem State.cpush_runState (s : State) (v : Index) : (s.cpush v).runState = s.runState := rfl
@[simp] theorem State.cpush_out (s : State) (v : Index) : (s.cpush v).out = s.out := rfl
@[simp] theorem State.cpush_diag (s : State) (v : Index) : (s.cpush v).diag = s.diag := rfl

@[simp] theorem State.storeCell_cfg (s : State) (a : Nat) (v : Word) : (s.storeCell a v).cfg = s.cfg := rfl
@[simp] theorem State.storeCell_prog (s : State) (a : Nat) (v : Word) : (s.storeCell a v).prog = s.prog := rfl
@[simp] theorem State.storeCell_os (s : State) (a : Nat) (v : Word) : (s.storeCell a v).os = s.os := rfl
@[simp] theorem State.storeCell_cs (s : State) (a : Nat) (v : Word) : (s.storeCell a v).cs = s.cs := rfl
@[simp] theorem State.storeCell_mem (s : State) (a : Nat) (v : Word) : (s.storeCell a v).mem = s.mem.write a v := rfl
@[simp] theorem State.storeCell_pc (s : State) (a : Nat) (v : Word) : (s.storeCell a v).pc = s.pc := rfl
@[simp] theorem State.storeCell_flags (s : State) (a : Nat) (v : Word) : (s.storeCell a v).flags = s.flags := rfl
@[simp] theorem State.storeCell_runState (s : State) (a : Nat) (v : Word) : (s.storeCell a v).runState = s.runState := rfl
@[simp] theorem State.storeCell_out (s : State) (a : Nat) (v : Word) : (s.storeCell a v).out = s.out := rfl
@[simp] theorem State.storeCell_diag (s : State) (a : Nat) (v : Word) : (s.storeCell a v).diag = s.diag := rfl

@[simp] theorem State.jumpTo_cfg (s : State) (t : Index) : (s.jumpTo t).cfg = s.cfg := rfl
@[simp] theorem State.jumpTo_prog (s : State) (t : Index) : (s.jumpTo t).prog = s.prog := rfl
@[simp] theorem State.jumpTo_os (s : State) (t : Index) : (s.jumpTo t).os = s.os := rfl
@[simp] theorem State.jumpTo_cs (s : State) (t : Index) : (s.jumpTo t).cs = s.cs := rfl
@[simp] theorem State.jumpTo_mem (s : State) (t : Index) : (s.jumpTo t).mem = s.mem := rfl
@[simp] theorem State.jumpTo_pc (s : State) (t : Index) : (s.jumpTo t).pc = t := rfl
@[simp] theorem State.jumpTo_flags (s : State) (t : Index) : (s.jumpTo t).flags = s.flags := rfl
@[simp] theorem State.jumpTo_runState (s : State) (t : Index) : (s.jumpTo t).runState = s.runState := rfl
@[simp] theorem State.jumpTo_out (s : State) (t : Index) : (s.jumpTo t).out = s.out := rfl
@[simp] theorem State.jumpTo_diag (s : State) (t : Index) : (s.jumpTo t).diag = s.diag := rfl

@[simp] theorem State.setFlags_cfg (s : State) (f : Flags) : (s.setFlags f).cfg = s.cfg := rfl
@[simp] theorem State.setFlags_prog (s : State) (f : Flags) : (s.setFlags f).prog = s.prog := rfl
@[simp] theorem State.setFlags_os (s : State) (f : Flags) : (s.setFlags f).os = s.os := rfl
@[simp] theorem State.setFlags_cs (s : State) (f : Flags) : (s.setFlags f).cs = s.cs := rfl
@[simp] theorem State.setFlags_mem (s : State) (f : Flags) : (s.setFlags f).mem = s.mem := rfl
@[simp] theorem State.setFlags_pc (s : State) (f : Flags) : (s.setFlags f).pc = s.pc := rfl
@[simp] theorem State.setFlags_flags (s : State) (f : Flags) : (s.setFlags f).flags = f := rfl
@[simp] theorem State.setFlags_runState (s : State) (f : Flags) : (s.setFlags f).runState = s.runState := rfl
@[simp] theorem State.setFlags_out (s : State) (f : Flags) : (s.setFlags f).out = s.out := rfl
@[simp] theorem State.setFlags_diag (s : State) (f : Flags) : (s.setFlags f).diag = s.diag := rfl

@[simp] theorem State.emit_cfg (s : State) (e : ConsoleEvent) : (s.emit e).cfg = s.cfg := rfl
@[simp] theorem State.emit_prog (s : State) (e : ConsoleEvent) : (s.emit e).prog = s.prog := rfl
@[simp] theorem State.emit_os (s : State) (e : ConsoleEvent) : (s.emit e).os = s.os := rfl
@[simp] theorem State.emit_cs (s : State) (e : ConsoleEvent) : (s.emit e).cs = s.cs := rfl
@[simp] theorem State.emit_mem (s : State) (e : ConsoleEvent) : (s.emit e).mem = s.mem := rfl
@[simp] theorem State.emit_pc (s : State) (e : ConsoleEvent) : (s.emit e).pc = s.pc := rfl
@[simp] theorem State.emit_flags (s : State) (e : ConsoleEvent) : (s.emit e).flags = s.flags := rfl
@[simp] theorem State.emit_runState (s : State) (e : ConsoleEvent) : (s.emit e).runState = s.runState := rfl
@[simp] theorem State.emit_out (s : State) (e : ConsoleEvent) : (s.emit e).out = s.out ++ [e] := rfl
@[simp] theorem State.emit_diag (s : State) (e : ConsoleEvent) : (s.emit e).diag = s.diag := rfl

@[simp] theorem takeFault_cfg (k : FaultKind) (s : State) : (takeFault k s).cfg = s.cfg := rfl
@[simp] theorem takeFault_prog (k : FaultKind) (s : State) : (takeFault k s).prog = s.prog := rfl
@[simp] theorem takeFault_os (k : FaultKind) (s : State) : (takeFault k s).os = s.os := rfl
@[simp] theorem takeFault_cs (k : FaultKind) (s : State) : (takeFault k s).cs = s.cs := rfl
@[simp] theorem takeFault_mem (k : FaultKind) (s : State) : (takeFault k s).mem = s.mem := rfl
@[simp] theorem takeFault_pc (k : FaultKind) (s : State) : (takeFault k s).pc = s.pc := rfl
@[simp] theorem takeFault_flags (k : FaultKind) (s : State) : (takeFault k s).flags = s.flags := rfl
@[simp] theorem takeFault_runState (k : FaultKind) (s : State) : (takeFault k s).runState = .haltedOnFault k := rfl
@[simp] theorem takeFault_out (k : FaultKind) (s : State) : (takeFault k s).out = s.out := rfl
@[simp] theorem takeFault_diag (k : FaultKind) (s : State) : (takeFault k s).diag = s.diag ++ [⟨k, s.os, s.cs⟩] := rfl

@[simp] theorem terminateRun_cfg (c : Word) (s : State) : (terminateRun c s).cfg = s.cfg := rfl
@[simp] theorem terminateRun_prog (c : Word) (s : State) : (terminateRun c s).prog = s.prog := rfl
@[simp] theorem terminateRun_os (c : Word) (s : State) : (terminateRun c s).os = s.os := rfl
@[simp] theorem terminateRun_cs (c : Word) (s : State) : (terminateRun c s).cs = s.cs := rfl
@[simp] theorem terminateRun_mem (c : Word) (s : State) : (terminateRun c s).mem = s.mem := rfl
@[simp] theorem terminateRun_pc (c : Word) (s : State) : (terminateRun c s).pc = s.pc := rfl
@[simp] theorem terminateRun_flags (c : Word) (s : State) : (terminateRun c s).flags = s.flags := rfl
@[simp] theorem terminateRun_runState (c : Word) (s : State) : (terminateRun c s).runState = .terminated c := rfl
@[simp] theorem terminateRun_out (c : Word) (s : State) : (terminateRun c s).out = s.out := rfl
@[simp] theorem terminateRun_diag (c : Word) (s : State) : (terminateRun c s).diag = s.diag := rfl

@[simp] theorem State.advance_cfg (s : State) : (s.advance).cfg = s.cfg := rfl
@[simp] theorem State.advance_prog (s : State) : (s.advance).prog = s.prog := rfl
@[simp] theorem State.advance_os (s : State) : (s.advance).os = s.os := rfl
@[simp] theorem State.advance_cs (s : State) : (s.advance).cs = s.cs := rfl
@[simp] theorem State.advance_mem (s : State) : (s.advance).mem = s.mem := rfl
@[simp] theorem State.advance_pc (s : State) : (s.advance).pc = s.pc + 1 := rfl
@[simp] theorem State.advance_flags (s : State) : (s.advance).flags = s.flags := rfl
@[simp] theorem State.advance_runState (s : State) : (s.advance).runState = s.runState := rfl
@[simp] theorem State.advance_out (s : State) : (s.advance).out = s.out := rfl
@[simp] theorem State.advance_diag (s : State) : (s.advance).diag = s.diag := rfl

@[simp] theorem haltNormally_cfg (s : State) : (haltNormally s).cfg = s.cfg := rfl
@[simp] theorem haltNormally_prog (s : State) : (haltNormally s).prog = s.prog := rfl
@[simp] theorem haltNormally_os (s : State) : (haltNormally s).os = s.os := rfl
@[simp] theorem haltNormally_cs (s : State) : (haltNormally s).cs = s.cs := rfl
@[simp] theorem haltNormally_mem (s : State) : (haltNormally s).mem = s.mem := rfl
@[simp] theorem haltNormally_pc (s : State) : (haltNormally s).pc = s.pc := rfl
@[simp] theorem haltNormally_flags (s : State) : (haltNormally s).flags = s.flags := rfl
@[simp] theorem haltNormally_runState (s : State) : (haltNormally s).runState = .haltedNormally := rfl
@[simp] theorem haltNormally_out (s : State) : (haltNormally s).out = s.out := rfl
@[simp] theorem haltNormally_diag (s : State) : (haltNormally s).diag = s.diag := rfl

end Sys2Proof.Machine
end

