-- ==== Sys2Proof/Laws/Memory.lean ====
section
/-! SUPPORT. The laws of the data memory: read after write, the canonical form, the cells that exist, the preload. -/

namespace Sys2Proof.Machine

theorem Memory.read_of_wfFrom {lo : Nat} {m : Memory} (h : m.wfFrom lo = true) {a : Nat} (ha : a < lo) :
    m.read a = 0#32 := by
  induction m generalizing lo with
  | nil => rfl
  | cons c m ih =>
    obtain ⟨b, v⟩ := c
    simp only [Memory.wfFrom, Bool.and_eq_true, decide_eq_true_eq] at h
    have hne : b ≠ a := by omega
    simp only [Memory.read, if_neg hne]
    exact ih h.2 (by omega)

theorem Memory.wfFrom_mono {lo lo' : Nat} {m : Memory} (h : m.wfFrom lo = true) (hle : lo' ≤ lo) :
    m.wfFrom lo' = true := by
  cases m with
  | nil => rfl
  | cons c m =>
    simp only [Memory.wfFrom, Bool.and_eq_true, decide_eq_true_eq] at h ⊢
    exact ⟨⟨by omega, h.1.2⟩, h.2⟩

/-- A write leaves every other cell alone, in any list. -/
theorem Memory.read_write_other (m : Memory) {a a' : Nat} (v : Word) (h : a' ≠ a) :
    (m.write a v).read a' = m.read a' := by
  induction m with
  | nil =>
    by_cases hv : v = 0#32
    · simp [Memory.write, hv]
    · simp [Memory.write, hv, Memory.read, Ne.symm h]
  | cons c m ih =>
    obtain ⟨b, w⟩ := c
    by_cases h1 : a < b
    · by_cases hv : v = 0#32
      · simp [Memory.write, h1, hv]
      · simp [Memory.write, h1, hv, Memory.read, Ne.symm h]
    · by_cases h2 : a = b
      · subst h2
        by_cases hv : v = 0#32
        · simp [Memory.write, hv, Memory.read, Ne.symm h]
        · simp [Memory.write, hv, Memory.read, Ne.symm h]
      · simp only [Memory.write, if_neg h1, if_neg h2, Memory.read, ih]

theorem Memory.read_write_same_from {lo : Nat} {m : Memory} (hm : m.wfFrom lo = true) (a : Nat) (v : Word) :
    (m.write a v).read a = v := by
  induction m generalizing lo with
  | nil =>
    by_cases hv : v = 0#32 <;> simp [Memory.write, hv, Memory.read]
  | cons c m ih =>
    obtain ⟨b, w⟩ := c
    simp only [Memory.wfFrom, Bool.and_eq_true, decide_eq_true_eq] at hm
    by_cases h1 : a < b
    · by_cases hv : v = 0#32
      · have hne : b ≠ a := by omega
        have hr : Memory.read m a = 0#32 := Memory.read_of_wfFrom hm.2 (by omega)
        simp [Memory.write, h1, hv, Memory.read, hne, hr]
      · simp [Memory.write, h1, hv, Memory.read]
    · by_cases h2 : a = b
      · subst h2
        by_cases hv : v = 0#32
        · simp only [Memory.write, if_neg h1, if_true, hv]
          exact Memory.read_of_wfFrom hm.2 (by omega)
        · simp [Memory.write, hv, Memory.read]
      · have hne : b ≠ a := fun e => h2 e.symm
        simp only [Memory.write, if_neg h1, if_neg h2, Memory.read, if_neg hne]
        exact ih hm.2

/-- A read after a write to the same cell gives the value written. -/
theorem Memory.read_write_same {m : Memory} (hm : m.wf = true) (a : Nat) (v : Word) : (m.write a v).read a = v :=
  Memory.read_write_same_from hm a v

theorem Memory.wfFrom_write {lo : Nat} {m : Memory} (hm : m.wfFrom lo = true) {a : Nat} (ha : lo ≤ a) (v : Word) :
    (m.write a v).wfFrom lo = true := by
  induction m generalizing lo with
  | nil =>
    by_cases hv : v = 0#32 <;> simp [Memory.write, hv, Memory.wfFrom, ha]
  | cons c m ih =>
    obtain ⟨b, w⟩ := c
    simp only [Memory.wfFrom, Bool.and_eq_true, decide_eq_true_eq] at hm
    by_cases h1 : a < b
    · by_cases hv : v = 0#32
      · simp only [Memory.write, if_pos h1, if_pos hv, Memory.wfFrom, Bool.and_eq_true, decide_eq_true_eq]
        exact hm
      · simp only [Memory.write, if_pos h1, if_neg hv, Memory.wfFrom, Bool.and_eq_true, decide_eq_true_eq]
        exact ⟨⟨ha, hv⟩, ⟨by omega, hm.1.2⟩, hm.2⟩
    · by_cases h2 : a = b
      · subst h2
        by_cases hv : v = 0#32
        · simp only [Memory.write, if_neg h1, if_true, hv]
          exact Memory.wfFrom_mono hm.2 (by omega)
        · simp only [Memory.write, if_neg h1, if_true, if_neg hv, Memory.wfFrom, Bool.and_eq_true, decide_eq_true_eq]
          exact ⟨⟨ha, hv⟩, hm.2⟩
      · simp only [Memory.write, if_neg h1, if_neg h2, Memory.wfFrom, Bool.and_eq_true, decide_eq_true_eq]
        exact ⟨hm.1, ih hm.2 (by omega)⟩

/-- A write keeps the canonical form. -/
theorem Memory.wf_write {m : Memory} (hm : m.wf = true) (a : Nat) (v : Word) : (m.write a v).wf = true :=
  Memory.wfFrom_write hm (Nat.zero_le a) v

/-- A write to a cell that exists lists no cell that does not. -/
theorem Memory.within_write {size : Nat} {m : Memory} (hm : m.within size = true) {a : Nat} (ha : a < size)
    (v : Word) : (m.write a v).within size = true := by
  induction m with
  | nil => by_cases hv : v = 0#32 <;> simp [Memory.write, hv, Memory.within, ha]
  | cons c m ih =>
    obtain ⟨b, w⟩ := c
    simp only [Memory.within, List.all_cons, Bool.and_eq_true, decide_eq_true_eq] at hm ih ⊢
    by_cases h1 : a < b
    · by_cases hv : v = 0#32 <;> simp [Memory.write, h1, hv, hm.1, ha] <;> simpa using hm.2
    · by_cases h2 : a = b
      · subst h2
        by_cases hv : v = 0#32 <;> simp [Memory.write, hv, ha] <;> simpa using hm.2
      · simp only [Memory.write, if_neg h1, if_neg h2, List.all_cons, Bool.and_eq_true, decide_eq_true_eq]
        exact ⟨hm.1, ih hm.2⟩

theorem Memory.wfFrom_ofWordsFrom (i : Nat) (ws : List Word) : (Memory.ofWordsFrom i ws).wfFrom i = true := by
  induction ws generalizing i with
  | nil => rfl
  | cons w ws ih =>
    by_cases hw : w = 0#32
    · simp only [Memory.ofWordsFrom, if_pos hw]
      exact Memory.wfFrom_mono (ih (i + 1)) (by omega)
    · simp only [Memory.ofWordsFrom, if_neg hw, Memory.wfFrom, Bool.and_eq_true, decide_eq_true_eq]
      exact ⟨⟨Nat.le_refl i, hw⟩, ih (i + 1)⟩

/-- The preloaded memory is in its canonical form. -/
theorem Memory.wf_ofImage (image : List Word) : (Memory.ofImage image).wf = true :=
  Memory.wfFrom_ofWordsFrom 0 image

theorem Memory.within_ofWordsFrom (i size : Nat) (ws : List Word) (h : i + ws.length ≤ size) :
    (Memory.ofWordsFrom i ws).within size = true := by
  induction ws generalizing i with
  | nil => rfl
  | cons w ws ih =>
    simp only [List.length_cons] at h
    have ih' := ih (i + 1) (by omega)
    by_cases hw : w = 0#32
    · simpa only [Memory.ofWordsFrom, if_pos hw] using ih'
    · simp only [Memory.ofWordsFrom, if_neg hw, Memory.within, List.all_cons, Bool.and_eq_true, decide_eq_true_eq]
      exact ⟨by omega, ih'⟩

/-- The preload lists only cells that exist when it fits. -/
theorem Memory.within_ofImage {image : List Word} {size : Nat} (h : image.length ≤ size) :
    (Memory.ofImage image).within size = true :=
  Memory.within_ofWordsFrom 0 size image (by omega)

/-- The memory of the reset state is in its canonical form. -/
theorem Memory.wf_reset : State.reset.mem.wf = true := rfl

end Sys2Proof.Machine
end

