-- ==== Sys2Proof/Laws/Ops.lean ====
section
/-! SUPPORT. One lemma per shared operation that says once everything it can do, and one for the step. -/

namespace Sys2Proof.Machine

/-! ### Apply -/

@[simp] theorem applyResult_ok (s t : State) : applyResult s (.ok t) = .next t := rfl

@[simp] theorem applyResult_fault (s : State) (k : FaultKind) : applyResult s (.fault k) = .next (takeFault k s) := rfl

@[simp] theorem applyResult_terminate (s t : State) (c : Word) :
    applyResult s (.terminate c t) = .next (terminateRun c t) := rfl

/-- `Apply` always answers a next state. -/
theorem applyResult_answers_next (s : State) (r : Result) : ∃ t, applyResult s r = .next t := by
  cases r <;> exact ⟨_, rfl⟩

/-- Where a next state comes from. -/
theorem applyResult_cases {s t : State} {r : Result} (h : applyResult s r = .next t) :
    r = .ok t ∨ (∃ k, r = .fault k ∧ t = takeFault k s) ∨ ∃ c u, r = .terminate c u ∧ t = terminateRun c u := by
  cases r with
  | ok u => exact .inl (by cases h; rfl)
  | fault k => exact .inr (.inl ⟨k, rfl, by cases h; rfl⟩)
  | terminate c u => exact .inr (.inr ⟨c, u, rfl, by cases h; rfl⟩)

/-! ### Checks and pops -/

theorem withPop1_of_cons {s : State} {v : Word} {os : List Word} (h : s.os = v :: os) (go : Word → State → Result) :
    withPop1 s go = go v (s.setOs os) := by
  simp [withPop1, h]

theorem withPop1_of_short {s : State} (h : s.sp < 1) (go : Word → State → Result) :
    withPop1 s go = .fault .stackUnderflow := by
  rcases hos : s.os with _ | ⟨v, os⟩
  · simp [withPop1, hos]
  · simp [State.sp, hos] at h

theorem withPop1_cases (s : State) (go : Word → State → Result) :
    (∃ v os, s.os = v :: os ∧ withPop1 s go = go v (s.setOs os)) ∨
      (s.sp < 1 ∧ withPop1 s go = .fault .stackUnderflow) := by
  rcases hos : s.os with _ | ⟨v, os⟩
  · have h : s.sp < 1 := by simp [State.sp, hos]
    exact .inr ⟨h, withPop1_of_short h go⟩
  · exact .inl ⟨v, os, rfl, withPop1_of_cons hos go⟩

theorem withPop2_of_cons {s : State} {b a : Word} {os : List Word} (h : s.os = b :: a :: os)
    (go : Word → Word → State → Result) : withPop2 s go = go b a (s.setOs os) := by
  simp [withPop2, h]

theorem withPop2_of_short {s : State} (h : s.sp < 2) (go : Word → Word → State → Result) :
    withPop2 s go = .fault .stackUnderflow := by
  rcases hos : s.os with _ | ⟨b, _ | ⟨a, os⟩⟩
  · simp [withPop2, hos]
  · simp [withPop2, hos]
  · simp [State.sp, hos] at h

theorem withPop2_cases (s : State) (go : Word → Word → State → Result) :
    (∃ b a os, s.os = b :: a :: os ∧ withPop2 s go = go b a (s.setOs os)) ∨
      (s.sp < 2 ∧ withPop2 s go = .fault .stackUnderflow) := by
  rcases hos : s.os with _ | ⟨b, _ | ⟨a, os⟩⟩
  · have h : s.sp < 2 := by simp [State.sp, hos]
    exact .inr ⟨h, withPop2_of_short h go⟩
  · have h : s.sp < 2 := by simp [State.sp, hos]
    exact .inr ⟨h, withPop2_of_short h go⟩
  · exact .inl ⟨b, a, os, rfl, withPop2_of_cons hos go⟩

theorem withPop3_of_cons {s : State} {a b c : Word} {os : List Word} (h : s.os = a :: b :: c :: os)
    (go : Word → Word → Word → State → Result) : withPop3 s go = go a b c (s.setOs os) := by
  simp [withPop3, h]

theorem withPop3_of_short {s : State} (h : s.sp < 3) (go : Word → Word → Word → State → Result) :
    withPop3 s go = .fault .stackUnderflow := by
  rcases hos : s.os with _ | ⟨a, _ | ⟨b, _ | ⟨c, os⟩⟩⟩
  · simp [withPop3, hos]
  · simp [withPop3, hos]
  · simp [withPop3, hos]
  · simp [State.sp, hos] at h; omega

theorem withPop3_cases (s : State) (go : Word → Word → Word → State → Result) :
    (∃ a b c os, s.os = a :: b :: c :: os ∧ withPop3 s go = go a b c (s.setOs os)) ∨
      (s.sp < 3 ∧ withPop3 s go = .fault .stackUnderflow) := by
  by_cases h : s.sp < 3
  · exact .inr ⟨h, withPop3_of_short h go⟩
  · rcases hos : s.os with _ | ⟨a, _ | ⟨b, _ | ⟨c, os⟩⟩⟩
    · simp [State.sp, hos] at h
    · simp [State.sp, hos] at h
    · simp [State.sp, hos] at h
    · exact .inl ⟨a, b, c, os, rfl, withPop3_of_cons hos go⟩

theorem withRoomOS_of_room {s : State} (h : s.sp < s.cfg.stackCap) (go : Result) : withRoomOS s go = go := by
  simp only [withRoomOS, if_neg (Nat.not_le.mpr h)]

theorem withRoomOS_of_full {s : State} (h : s.cfg.stackCap ≤ s.sp) (go : Result) :
    withRoomOS s go = .fault .stackOverflow := by
  simp only [withRoomOS, if_pos h]

theorem withRoomOS_cases (s : State) (go : Result) :
    (s.sp < s.cfg.stackCap ∧ withRoomOS s go = go) ∨
      (s.cfg.stackCap ≤ s.sp ∧ withRoomOS s go = .fault .stackOverflow) := by
  rcases Nat.lt_or_ge s.sp s.cfg.stackCap with h | h
  · exact .inl ⟨h, withRoomOS_of_room h go⟩
  · exact .inr ⟨h, withRoomOS_of_full h go⟩

theorem withRoomCS_of_room {s : State} (h : s.csp < s.cfg.stackCap) (go : Result) : withRoomCS s go = go := by
  simp only [withRoomCS, if_neg (Nat.not_le.mpr h)]

theorem withRoomCS_of_full {s : State} (h : s.cfg.stackCap ≤ s.csp) (go : Result) :
    withRoomCS s go = .fault .stackOverflow := by
  simp only [withRoomCS, if_pos h]

theorem withRoomCS_cases (s : State) (go : Result) :
    (s.csp < s.cfg.stackCap ∧ withRoomCS s go = go) ∨
      (s.cfg.stackCap ≤ s.csp ∧ withRoomCS s go = .fault .stackOverflow) := by
  rcases Nat.lt_or_ge s.csp s.cfg.stackCap with h | h
  · exact .inl ⟨h, withRoomCS_of_room h go⟩
  · exact .inr ⟨h, withRoomCS_of_full h go⟩

theorem withCPop_of_cons {s : State} {v : Index} {cs : List Index} (h : s.cs = v :: cs) (go : Index → State → Result) :
    withCPop s go = go v (s.setCs cs) := by
  simp [withCPop, h]

theorem withCPop_of_nil {s : State} (h : s.cs = []) (go : Index → State → Result) :
    withCPop s go = .fault .stackUnderflow := by
  simp [withCPop, h]

theorem withCPop_cases (s : State) (go : Index → State → Result) :
    (∃ v cs, s.cs = v :: cs ∧ withCPop s go = go v (s.setCs cs)) ∨
      (s.cs = [] ∧ withCPop s go = .fault .stackUnderflow) := by
  rcases hcs : s.cs with _ | ⟨v, cs⟩
  · exact .inr ⟨rfl, withCPop_of_nil hcs go⟩
  · exact .inl ⟨v, cs, rfl, withCPop_of_cons hcs go⟩

/-! ### Operand forms -/

theorem cellOf_of_legal {c : Config} {a : Word} (h0 : 0 ≤ a.toInt) (h1 : a.toInt < (c.memSize : Int)) :
    cellOf c a = some a.toInt.toNat := by
  simp only [cellOf, if_pos (And.intro h0 h1)]

theorem cellOf_of_illegal {c : Config} {a : Word} (h : ¬(0 ≤ a.toInt ∧ a.toInt < (c.memSize : Int))) :
    cellOf c a = none := by
  simp only [cellOf, if_neg h]

/-- A cell an address names exists. -/
theorem cellOf_lt {c : Config} {a : Word} {cell : Nat} (h : cellOf c a = some cell) : cell < c.memSize := by
  by_cases hl : 0 ≤ a.toInt ∧ a.toInt < (c.memSize : Int)
  · rw [cellOf_of_legal hl.1 hl.2] at h
    cases h
    omega
  · rw [cellOf_of_illegal hl] at h
    cases h

theorem withCell_of_some {s : State} {a : Word} {cell : Nat} (h : cellOf s.cfg a = some cell) (go : Nat → Result) :
    withCell s a go = go cell := by
  simp only [withCell, h]

theorem withCell_of_none {s : State} {a : Word} (h : cellOf s.cfg a = none) (go : Nat → Result) :
    withCell s a go = .fault .illegalMemoryAccess := by
  simp only [withCell, h]

theorem withCell_cases (s : State) (a : Word) (go : Nat → Result) :
    (∃ cell, cellOf s.cfg a = some cell ∧ cell < s.cfg.memSize ∧ withCell s a go = go cell) ∨
      (cellOf s.cfg a = none ∧ withCell s a go = .fault .illegalMemoryAccess) := by
  rcases h : cellOf s.cfg a with _ | cell
  · exact .inr ⟨rfl, withCell_of_none h go⟩
  · exact .inl ⟨cell, rfl, cellOf_lt h, withCell_of_some h go⟩

theorem withDivisor_of_legal {a b : Word} (h0 : b.toInt ≠ 0) (h1 : ¬(a.toInt = -2 ^ 31 ∧ b.toInt = -1)) (go : Result) :
    withDivisor a b go = go := by
  simp only [withDivisor, if_neg h0, if_neg h1]

theorem withDivisor_cases (a b : Word) (go : Result) :
    (b.toInt ≠ 0 ∧ ¬(a.toInt = -2 ^ 31 ∧ b.toInt = -1) ∧ withDivisor a b go = go) ∨
      ((b.toInt = 0 ∨ (a.toInt = -2 ^ 31 ∧ b.toInt = -1)) ∧ withDivisor a b go = .fault .divideError) := by
  by_cases h0 : b.toInt = 0
  · exact .inr ⟨.inl h0, by simp only [withDivisor, if_pos h0]⟩
  · by_cases h1 : a.toInt = -2 ^ 31 ∧ b.toInt = -1
    · exact .inr ⟨.inr h1, by simp only [withDivisor, if_neg h0, if_pos h1]⟩
    · exact .inl ⟨h0, h1, withDivisor_of_legal h0 h1 go⟩

/-! ### Conversions -/

/-- `wrap32` is the identity exactly on `i32`. -/
theorem wrap32_toInt_eq_iff (x : Int) : (wrap32 x).toInt = x ↔ isI32 x = true := by
  simp only [wrap32, isI32, BitVec.toInt_ofInt, Bool.and_eq_true, decide_eq_true_eq, Int.bmod_def]
  omega

/-! ### Execution -/

/-- Every instruction answers a next state, from every state: a fault of the instruction set is one too. -/
theorem exec_answers_next (i : Instr) (s : State) : ∃ t, exec i s = .next t := by
  cases i <;> first | exact ⟨_, rfl⟩ | exact applyResult_answers_next s _

/-! ### The step -/

/-- Everything a step to a next state can do: the halt check, an illegal opcode, or the decoded instruction. -/
theorem step_cases {s t : State} (h : step s = .next t) :
    s.runState = .running ∧
      ((fetch s = none ∧ t = haltNormally s) ∨
        (∃ r e, fetch s = some r ∧ decode r = .error e ∧ t = takeFault .illegalInstruction s.advance) ∨
        ∃ r i, fetch s = some r ∧ decode r = .ok i ∧ exec i s.advance = .next t) := by
  unfold step at h
  split at h
  · rename_i hr
    refine ⟨hr, ?_⟩
    split at h
    · rename_i hf
      exact .inl ⟨hf, by cases h; rfl⟩
    · rename_i r hf
      split at h
      · rename_i i hd
        exact .inr (.inr ⟨r, i, hf, hd, h⟩)
      · rename_i e hd
        exact .inr (.inl ⟨r, e, hf, hd, by cases h; rfl⟩)
  · cases h

end Sys2Proof.Machine
end

