-- ==== Sys2Proof/Laws/Exec.lean ====
section
/-! SUPPORT. Everything an instruction can do, said once: it raises a fault of the table of spec/60_exceptions.md R221, or
it has its effect. Proofs about all instructions go by cases on `Raises` and `Effect` and never unfold a meaning. -/

namespace Sys2Proof.Machine

/-- How many operand-stack entries an instruction needs (R221). -/
def needs : Instr → Nat
  | .add | .sub | .mul | .divmod | .swap | .compare | .memSetIndirect => 2
  | .rot3 => 3
  | .dup | .drop | .printNum | .printChar | .memSetAbs _ | .memGetIndirect => 1
  | .push _ | .dump | .memGetAbs _ | .jmp _ | .jmpIfCarry _ | .jmpIfNotCarry _ | .jmpIfEqual _ | .jmpIfNotEqual _
  | .jmpIfLess _ | .jmpIfLessOrEqual _ | .jmpIfGreater _ | .jmpIfGreaterOrEqual _ | .call _ | .ret | .exit => 0

/-- The faults of the 29 instructions and their conditions (R221), from state `s`. -/
inductive Raises (s : State) : Instr → FaultKind → Prop where
  | short (i : Instr) : s.sp < needs i → Raises s i .stackUnderflow
  | pushFull (x : Word) : s.cfg.stackCap ≤ s.sp → Raises s (.push x) .stackOverflow
  | dupFull (v : Word) (os : List Word) : s.os = v :: os → s.cfg.stackCap ≤ s.sp → Raises s .dup .stackOverflow
  | divisor (b a : Word) (os : List Word) : s.os = b :: a :: os →
      b.toInt = 0 ∨ (a.toInt = -2 ^ 31 ∧ b.toInt = -1) → Raises s .divmod .divideError
  | memSetAbs (x v : Word) (os : List Word) : s.os = v :: os → cellOf s.cfg x = none →
      Raises s (.memSetAbs x) .illegalMemoryAccess
  | memGetAbsFull (x : Word) : s.cfg.stackCap ≤ s.sp → Raises s (.memGetAbs x) .stackOverflow
  | memGetAbs (x : Word) : s.sp < s.cfg.stackCap → cellOf s.cfg x = none →
      Raises s (.memGetAbs x) .illegalMemoryAccess
  | memSetIndirect (x v : Word) (os : List Word) : s.os = x :: v :: os → cellOf s.cfg x = none →
      Raises s .memSetIndirect .illegalMemoryAccess
  | memGetIndirect (x : Word) (os : List Word) : s.os = x :: os → cellOf s.cfg x = none →
      Raises s .memGetIndirect .illegalMemoryAccess
  | callFull (x : Word) : s.cfg.stackCap ≤ s.csp → Raises s (.call x) .stackOverflow
  | retEmpty : s.cs = [] → Raises s .ret .stackUnderflow

/-- The ALU operation of an instruction that writes the carry (42_arithmetic.md R141 to R143). -/
def aluOf : Instr → Option AluOp
  | .add => some .add
  | .sub => some .sub
  | .mul => some .mul
  | .push _ | .divmod | .dup | .swap | .rot3 | .drop | .printNum | .printChar | .dump | .memSetAbs _ | .memGetAbs _
  | .compare | .jmp _ | .jmpIfCarry _ | .jmpIfNotCarry _ | .jmpIfEqual _ | .jmpIfNotEqual _ | .jmpIfLess _
  | .jmpIfLessOrEqual _ | .jmpIfGreater _ | .jmpIfGreaterOrEqual _ | .memSetIndirect | .memGetIndirect | .call _
  | .ret | .exit => none

/-- The condition and the operand of a branch instruction: the table of 45_compare_branch.md R191. -/
def branchOf : Instr → Option (Cond × Word)
  | .jmp x => some (.always, x)
  | .jmpIfCarry x => some (.carry, x)
  | .jmpIfNotCarry x => some (.notCarry, x)
  | .jmpIfEqual x => some (.equal, x)
  | .jmpIfNotEqual x => some (.notEqual, x)
  | .jmpIfLess x => some (.less, x)
  | .jmpIfLessOrEqual x => some (.lessOrEqual, x)
  | .jmpIfGreater x => some (.greater, x)
  | .jmpIfGreaterOrEqual x => some (.greaterOrEqual, x)
  | .push _ | .add | .sub | .mul | .divmod | .dup | .swap | .rot3 | .drop | .printNum | .printChar | .dump
  | .memSetAbs _ | .memGetAbs _ | .compare | .memSetIndirect | .memGetIndirect | .call _ | .ret | .exit => none

/-- The effects of the 29 instructions when they do not fault, from state `s`. -/
inductive Effect (s : State) : Instr → State → Prop where
  | push (x : Word) : s.sp < s.cfg.stackCap → Effect s (.push x) (s.push x)
  | alu (i : Instr) (op : AluOp) (b a : Word) (os : List Word) : aluOf i = some op → s.os = b :: a :: os →
      Effect s i (((s.setOs os).setFlags
        { s.flags with carry := carryOut s.cfg.carryReading op (op.exact a.toInt b.toInt) }).push
          (wrap32 (op.exact a.toInt b.toInt)))
  | divmod (b a : Word) (os : List Word) : s.os = b :: a :: os → b.toInt ≠ 0 →
      ¬(a.toInt = -2 ^ 31 ∧ b.toInt = -1) →
      Effect s .divmod (s.setOs (wrap32 (truncDiv a.toInt b.toInt) :: wrap32 (truncRem a.toInt b.toInt) :: os))
  | dup (v : Word) (os : List Word) : s.os = v :: os → s.sp < s.cfg.stackCap → Effect s .dup (s.push v)
  | swap (b a : Word) (os : List Word) : s.os = b :: a :: os → Effect s .swap (s.setOs (a :: b :: os))
  | rot3Same (a b c : Word) (os : List Word) : s.os = a :: b :: c :: os → s.cfg.rot3Reading = .noOp →
      Effect s .rot3 (s.setOs (a :: b :: c :: os))
  | rot3Reverse (a b c : Word) (os : List Word) : s.os = a :: b :: c :: os → s.cfg.rot3Reading = .reverseTop3 →
      Effect s .rot3 (s.setOs (c :: b :: a :: os))
  | drop (v : Word) (os : List Word) : s.os = v :: os → Effect s .drop (s.setOs os)
  | printNum (v : Word) (os : List Word) : s.os = v :: os → Effect s .printNum ((s.setOs os).emit (.num v))
  | printChar (v : Word) (os : List Word) : s.os = v :: os → Effect s .printChar ((s.setOs os).emit (.char (lowByte v)))
  | dump : Effect s .dump (s.emit (.dump s.os))
  | memSetAbs (x v : Word) (os : List Word) (c : Nat) : s.os = v :: os → cellOf s.cfg x = some c →
      Effect s (.memSetAbs x) ((s.setOs os).storeCell c v)
  | memGetAbs (x : Word) (c : Nat) : s.sp < s.cfg.stackCap → cellOf s.cfg x = some c →
      Effect s (.memGetAbs x) (s.push (s.readCell c))
  | compare (b a : Word) (os : List Word) : s.os = b :: a :: os →
      Effect s .compare ((s.setOs os).setFlags (compareFlags s.flags a b))
  | branchTaken (i : Instr) (c : Cond) (x : Word) : branchOf i = some (c, x) → c.holds s.flags = true → Effect s i (s.jumpTo x)
  | branchNotTaken (i : Instr) (c : Cond) (x : Word) : branchOf i = some (c, x) → c.holds s.flags = false → Effect s i s
  | memSetIndirect (x v : Word) (os : List Word) (c : Nat) : s.os = x :: v :: os → cellOf s.cfg x = some c →
      Effect s .memSetIndirect ((s.setOs os).storeCell c v)
  | memGetIndirect (x : Word) (os : List Word) (c : Nat) : s.os = x :: os → cellOf s.cfg x = some c →
      Effect s .memGetIndirect (s.setOs (s.readCell c :: os))
  | call (x : Word) : s.csp < s.cfg.stackCap → Effect s (.call x) ((s.cpush s.pc).jumpTo x)
  | ret (v : Index) (cs : List Index) : s.cs = v :: cs → Effect s .ret ((s.setCs cs).jumpTo v)
  | exitTop (v : Word) (os : List Word) : s.os = v :: os → Effect s .exit (terminateRun v (s.setOs os))
  | exitEmpty : s.os = [] → Effect s .exit (terminateRun 0 s)

/-- What an instruction answers when it faults or has its effect. -/
def FaultOrEffect (s : State) (i : Instr) (t : State) : Prop :=
  (∃ k, Raises s i k ∧ t = takeFault k s) ∨ Effect s i t

theorem faultOrEffect_withPop1 {i : Instr} {s t : State} {go : Word → State → Result}
    (hn : needs i = 1) (h : applyResult s (withPop1 s go) = .next t)
    (hgo : ∀ v os, s.os = v :: os → applyResult s (go v (s.setOs os)) = .next t → FaultOrEffect s i t) :
    FaultOrEffect s i t := by
  rcases withPop1_cases s go with ⟨v, os, h1, h2⟩ | ⟨h1, h2⟩ <;> rw [h2] at h
  · exact hgo v os h1 h
  · cases h; exact .inl ⟨_, .short i (hn ▸ h1), rfl⟩

theorem faultOrEffect_withPop2 {i : Instr} {s t : State} {go : Word → Word → State → Result}
    (hn : needs i = 2) (h : applyResult s (withPop2 s go) = .next t)
    (hgo : ∀ b a os, s.os = b :: a :: os → applyResult s (go b a (s.setOs os)) = .next t → FaultOrEffect s i t) :
    FaultOrEffect s i t := by
  rcases withPop2_cases s go with ⟨b, a, os, h1, h2⟩ | ⟨h1, h2⟩ <;> rw [h2] at h
  · exact hgo b a os h1 h
  · cases h; exact .inl ⟨_, .short i (hn ▸ h1), rfl⟩

theorem faultOrEffect_withPop3 {i : Instr} {s t : State} {go : Word → Word → Word → State → Result}
    (hn : needs i = 3) (h : applyResult s (withPop3 s go) = .next t)
    (hgo : ∀ a b c os, s.os = a :: b :: c :: os → applyResult s (go a b c (s.setOs os)) = .next t →
      FaultOrEffect s i t) : FaultOrEffect s i t := by
  rcases withPop3_cases s go with ⟨a, b, c, os, h1, h2⟩ | ⟨h1, h2⟩ <;> rw [h2] at h
  · exact hgo a b c os h1 h
  · cases h; exact .inl ⟨_, .short i (hn ▸ h1), rfl⟩

theorem faultOrEffect_withRoomOS {i : Instr} {s t : State} {go : Result} (h : applyResult s (withRoomOS s go) = .next t)
    (hf : s.cfg.stackCap ≤ s.sp → Raises s i .stackOverflow)
    (hgo : s.sp < s.cfg.stackCap → applyResult s go = .next t → FaultOrEffect s i t) : FaultOrEffect s i t := by
  rcases withRoomOS_cases s go with ⟨h1, h2⟩ | ⟨h1, h2⟩ <;> rw [h2] at h
  · exact hgo h1 h
  · cases h; exact .inl ⟨_, hf h1, rfl⟩

theorem faultOrEffect_withCell {i : Instr} {s t : State} {a : Word} {go : Nat → Result}
    (h : applyResult s (withCell s a go) = .next t) (hf : cellOf s.cfg a = none → Raises s i .illegalMemoryAccess)
    (hgo : ∀ c, cellOf s.cfg a = some c → applyResult s (go c) = .next t → FaultOrEffect s i t) :
    FaultOrEffect s i t := by
  rcases withCell_cases s a go with ⟨c, h1, _, h2⟩ | ⟨h1, h2⟩ <;> rw [h2] at h
  · exact hgo c h1 h
  · cases h; exact .inl ⟨_, hf h1, rfl⟩

theorem faultOrEffect_aluOp {i : Instr} {op : AluOp} {s t : State} (hn : needs i = 2) (hi : aluOf i = some op)
    (h : applyResult s (aluOp op s) = .next t) : FaultOrEffect s i t :=
  faultOrEffect_withPop2 hn h fun b a os hos h => by cases h; exact .inr (.alu i op b a os hi hos)

theorem faultOrEffect_branch {i : Instr} {c : Cond} {x : Word} {s t : State} (hi : branchOf i = some (c, x))
    (h : applyResult s (branch c x s) = .next t) : FaultOrEffect s i t := by
  simp only [branch, applyResult_ok] at h
  cases hc : c.holds s.flags <;> rw [hc] at h <;> cases h
  · exact .inr (.branchNotTaken i c x hi hc)
  · exact .inr (.branchTaken i c x hi hc)

/-- The inversion lemma of `exec`: a next state is a fault of R221 taken in `s`, or the instruction's effect on `s`. -/
theorem exec_faultOrEffect {i : Instr} {s t : State} (h : exec i s = .next t) : FaultOrEffect s i t := by
  cases i with
  | push x => exact faultOrEffect_withRoomOS h (.pushFull x) fun hr h => by cases h; exact .inr (.push x hr)
  | add => exact faultOrEffect_aluOp rfl rfl h
  | sub => exact faultOrEffect_aluOp rfl rfl h
  | mul => exact faultOrEffect_aluOp rfl rfl h
  | divmod =>
    refine faultOrEffect_withPop2 rfl h fun b a os hos h => ?_
    rcases withDivisor_cases a b (.ok (((s.setOs os).push (wrap32 (truncRem a.toInt b.toInt))).push
      (wrap32 (truncDiv a.toInt b.toInt)))) with ⟨h0, h1, hd⟩ | ⟨h0, hd⟩ <;> rw [hd] at h <;> cases h
    · exact .inr (.divmod b a os hos h0 h1)
    · exact .inl ⟨_, .divisor b a os hos h0, rfl⟩
  | dup =>
    refine faultOrEffect_withPop1 rfl h fun v os hos h => ?_
    exact faultOrEffect_withRoomOS h (.dupFull v os hos) fun hr h => by cases h; exact .inr (.dup v os hos hr)
  | swap =>
    exact faultOrEffect_withPop2 rfl h fun b a os hos h => by cases h; exact .inr (.swap b a os hos)
  | rot3 =>
    refine faultOrEffect_withPop3 rfl h fun a b c os hos h => ?_
    cases hc : s.cfg.rot3Reading <;> simp only [hc] at h <;> cases h
    · exact .inr (.rot3Same a b c os hos hc)
    · exact .inr (.rot3Reverse a b c os hos hc)
  | drop => exact faultOrEffect_withPop1 rfl h fun v os hos h => by cases h; exact .inr (.drop v os hos)
  | printNum => exact faultOrEffect_withPop1 rfl h fun v os hos h => by cases h; exact .inr (.printNum v os hos)
  | printChar => exact faultOrEffect_withPop1 rfl h fun v os hos h => by cases h; exact .inr (.printChar v os hos)
  | dump => cases h; exact .inr .dump
  | memSetAbs x =>
    refine faultOrEffect_withPop1 rfl h fun v os hos h => ?_
    exact faultOrEffect_withCell h (.memSetAbs x v os hos) fun c hc h => by cases h; exact .inr (.memSetAbs x v os c hos hc)
  | memGetAbs x =>
    refine faultOrEffect_withRoomOS h (.memGetAbsFull x) fun hr h => ?_
    exact faultOrEffect_withCell h (.memGetAbs x hr) fun c hc h => by cases h; exact .inr (.memGetAbs x c hr hc)
  | compare =>
    exact faultOrEffect_withPop2 rfl h fun b a os hos h => by cases h; exact .inr (.compare b a os hos)
  | jmp x => exact faultOrEffect_branch (c := .always) rfl h
  | jmpIfCarry x => exact faultOrEffect_branch (c := .carry) rfl h
  | jmpIfNotCarry x => exact faultOrEffect_branch (c := .notCarry) rfl h
  | jmpIfEqual x => exact faultOrEffect_branch (c := .equal) rfl h
  | jmpIfNotEqual x => exact faultOrEffect_branch (c := .notEqual) rfl h
  | jmpIfLess x => exact faultOrEffect_branch (c := .less) rfl h
  | jmpIfLessOrEqual x => exact faultOrEffect_branch (c := .lessOrEqual) rfl h
  | jmpIfGreater x => exact faultOrEffect_branch (c := .greater) rfl h
  | jmpIfGreaterOrEqual x => exact faultOrEffect_branch (c := .greaterOrEqual) rfl h
  | memSetIndirect =>
    refine faultOrEffect_withPop2 rfl h fun x v os hos h => ?_
    exact faultOrEffect_withCell h (.memSetIndirect x v os hos) fun c hc h => by
      cases h; exact .inr (.memSetIndirect x v os c hos hc)
  | memGetIndirect =>
    refine faultOrEffect_withPop1 rfl h fun x os hos h => ?_
    exact faultOrEffect_withCell h (.memGetIndirect x os hos) fun c hc h => by
      cases h; exact .inr (.memGetIndirect x os c hos hc)
  | call x =>
    rcases withRoomCS_cases s (.ok ((s.cpush s.pc).jumpTo (target x))) with ⟨hr, hg⟩ | ⟨hr, hg⟩ <;>
      simp only [exec, execCall, hg] at h <;> cases h
    · exact .inr (.call x hr)
    · exact .inl ⟨_, .callFull x hr, rfl⟩
  | ret =>
    rcases withCPop_cases s (fun v t => .ok (t.jumpTo v)) with ⟨v, cs, hcs, hg⟩ | ⟨hcs, hg⟩ <;>
      simp only [exec, execRet, hg] at h <;> cases h
    · exact .inr (.ret v cs hcs)
    · exact .inl ⟨_, .retEmpty hcs, rfl⟩
  | exit =>
    simp only [exec, execExit] at h
    split at h <;> cases h
    · exact .inr (.exitTop _ _ ‹_›)
    · exact .inr (.exitEmpty ‹_›)

/-- The converse of the inversion lemma, for a fault: where R221 names one, `exec` takes it in `s`. -/
theorem exec_of_raises {s : State} {i : Instr} {k : FaultKind} (h : Raises s i k) : exec i s = .next (takeFault k s) := by
  cases h with
  | short i h =>
    cases i <;> simp only [needs] at h <;> try omega
    all_goals first
     | (simp only [exec, execAdd, execSub, execMul, execDivmod, execSwap, execCompare, execMemSetIndirect, aluOp,
          withPop2_of_short h]; rfl)
     | (simp only [exec, execRot3, withPop3_of_short h]; rfl)
     | (simp only [exec, execDup, execDrop, execPrintNum, execPrintChar, execMemSetAbs, execMemGetIndirect,
          withPop1_of_short h]; rfl)
  | pushFull x h => simp only [exec, execPush, withRoomOS_of_full h]; rfl
  | dupFull v os h h2 => simp only [exec, execDup, withPop1_of_cons h, withRoomOS_of_full h2]; rfl
  | divisor b a os h h1 =>
    simp only [exec, execDivmod, withPop2_of_cons h, withDivisor]
    split
    · rfl
    · split
      · rfl
      · simp_all
  | memSetAbs x v os h h1 => simp only [exec, execMemSetAbs, withPop1_of_cons h, withCell_of_none h1]; rfl
  | memGetAbsFull x h => simp only [exec, execMemGetAbs, withRoomOS_of_full h]; rfl
  | memGetAbs x h h1 => simp only [exec, execMemGetAbs, withRoomOS_of_room h, withCell_of_none h1]; rfl
  | memSetIndirect x v os h h1 => simp only [exec, execMemSetIndirect, withPop2_of_cons h, withCell_of_none h1]; rfl
  | memGetIndirect x os h h1 => simp only [exec, execMemGetIndirect, withPop1_of_cons h, withCell_of_none h1]; rfl
  | callFull x h => simp only [exec, execCall, withRoomCS_of_full h]; rfl
  | retEmpty h => simp only [exec, execRet, withCPop_of_nil h]; rfl
/-- A branch acts as the multiplexer of R191 with its own condition. -/
theorem exec_of_branchOf {i : Instr} {c : Cond} {x : Word} (hi : branchOf i = some (c, x)) (s : State) :
    exec i s = applyResult s (branch c x s) := by
  cases i <;> cases hi <;> rfl

/-- An instruction that writes the carry acts as the shared shape of R141 to R143 with its own operation. -/
theorem exec_of_aluOf {i : Instr} {op : AluOp} (hi : aluOf i = some op) (s : State) :
    exec i s = applyResult s (aluOp op s) := by
  cases i <;> cases hi <;> rfl

/-- The converse of the inversion lemma, for a completed instruction: where its conditions hold, `exec` has the effect. -/
theorem exec_of_effect {s t : State} {i : Instr} (h : Effect s i t) : exec i s = .next t := by
  cases h with
  | push x h => simp only [exec, execPush, withRoomOS_of_room h]; rfl
  | alu i op b a os hi h =>
    rw [exec_of_aluOf hi s]
    simp only [aluOp, withPop2_of_cons h]
    rfl
  | divmod b a os h h1 h2 => simp only [exec, execDivmod, withPop2_of_cons h, withDivisor_of_legal h1 h2]; rfl
  | dup v os h h2 => simp only [exec, execDup, withPop1_of_cons h, withRoomOS_of_room h2]; rfl
  | swap b a os h => simp only [exec, execSwap, withPop2_of_cons h]; rfl
  | rot3Same a b c os h h2 => simp only [exec, execRot3, withPop3_of_cons h, h2]; rfl
  | rot3Reverse a b c os h h2 => simp only [exec, execRot3, withPop3_of_cons h, h2]; rfl
  | drop v os h => simp only [exec, execDrop, withPop1_of_cons h]; rfl
  | printNum v os h => simp only [exec, execPrintNum, withPop1_of_cons h]; rfl
  | printChar v os h => simp only [exec, execPrintChar, withPop1_of_cons h]; rfl
  | dump => rfl
  | memSetAbs x v os c h h1 => simp only [exec, execMemSetAbs, withPop1_of_cons h, withCell_of_some h1]; rfl
  | memGetAbs x c h h1 => simp only [exec, execMemGetAbs, withRoomOS_of_room h, withCell_of_some h1]; rfl
  | compare b a os h => simp only [exec, execCompare, withPop2_of_cons h]; rfl
  | branchTaken i c x hi h =>
    rw [exec_of_branchOf hi s]
    simp only [branch, h]
    rfl
  | branchNotTaken i c x hi h =>
    rw [exec_of_branchOf hi s]
    simp only [branch, h]
    rfl
  | memSetIndirect x v os c h h1 => simp only [exec, execMemSetIndirect, withPop2_of_cons h, withCell_of_some h1]; rfl
  | memGetIndirect x os c h h1 => simp only [exec, execMemGetIndirect, withPop1_of_cons h, withCell_of_some h1]; rfl
  | call x h => simp only [exec, execCall, withRoomCS_of_room h]; rfl
  | ret v cs h => simp only [exec, execRet, withCPop_of_cons h]; rfl
  | exitTop v os h => simp only [exec, execExit, h]; rfl
  | exitEmpty h => simp only [exec, execExit, h]; rfl

end Sys2Proof.Machine
end

