-- ==== Sys2Proof/Laws/PerInstr.lean ====
section
/-! SUPPORT. Facts about every instruction as syntax, one lemma per constructor: the record of an instruction decodes
to that instruction, and a format-N record has operand field 0. -/

namespace Sys2Proof.Laws.RecordRoundTrip

/-- Decoding the record of an instruction gives the instruction, its opcode is one of the 29, and a format-N record is
written with operand 0 (spec/30_encoding.md R74, R83). -/
def Statement (i : Instr) : Prop :=
  decode (encode i) = .ok i ∧ i.opcode ≤ 28 ∧ (i.format = .N → (encode i).operand = 0)

theorem push (x : Word) : Statement (.push x) := ⟨rfl, by simp [Instr.opcode], fun h => by cases h⟩
theorem add : Statement .add := ⟨rfl, by simp [Instr.opcode], fun _ => rfl⟩
theorem sub : Statement .sub := ⟨rfl, by simp [Instr.opcode], fun _ => rfl⟩
theorem mul : Statement .mul := ⟨rfl, by simp [Instr.opcode], fun _ => rfl⟩
theorem divmod : Statement .divmod := ⟨rfl, by simp [Instr.opcode], fun _ => rfl⟩
theorem dup : Statement .dup := ⟨rfl, by simp [Instr.opcode], fun _ => rfl⟩
theorem swap : Statement .swap := ⟨rfl, by simp [Instr.opcode], fun _ => rfl⟩
theorem rot3 : Statement .rot3 := ⟨rfl, by simp [Instr.opcode], fun _ => rfl⟩
theorem drop : Statement .drop := ⟨rfl, by simp [Instr.opcode], fun _ => rfl⟩
theorem printNum : Statement .printNum := ⟨rfl, by simp [Instr.opcode], fun _ => rfl⟩
theorem printChar : Statement .printChar := ⟨rfl, by simp [Instr.opcode], fun _ => rfl⟩
theorem dump : Statement .dump := ⟨rfl, by simp [Instr.opcode], fun _ => rfl⟩
theorem memSetAbs (x : Word) : Statement (.memSetAbs x) := ⟨rfl, by simp [Instr.opcode], fun h => by cases h⟩
theorem memGetAbs (x : Word) : Statement (.memGetAbs x) := ⟨rfl, by simp [Instr.opcode], fun h => by cases h⟩
theorem compare : Statement .compare := ⟨rfl, by simp [Instr.opcode], fun _ => rfl⟩
theorem jmp (x : Word) : Statement (.jmp x) := ⟨rfl, by simp [Instr.opcode], fun h => by cases h⟩
theorem jmpIfCarry (x : Word) : Statement (.jmpIfCarry x) := ⟨rfl, by simp [Instr.opcode], fun h => by cases h⟩
theorem jmpIfNotCarry (x : Word) : Statement (.jmpIfNotCarry x) := ⟨rfl, by simp [Instr.opcode], fun h => by cases h⟩
theorem jmpIfEqual (x : Word) : Statement (.jmpIfEqual x) := ⟨rfl, by simp [Instr.opcode], fun h => by cases h⟩
theorem jmpIfNotEqual (x : Word) : Statement (.jmpIfNotEqual x) := ⟨rfl, by simp [Instr.opcode], fun h => by cases h⟩
theorem jmpIfLess (x : Word) : Statement (.jmpIfLess x) := ⟨rfl, by simp [Instr.opcode], fun h => by cases h⟩
theorem jmpIfLessOrEqual (x : Word) : Statement (.jmpIfLessOrEqual x) := ⟨rfl, by simp [Instr.opcode], fun h => by cases h⟩
theorem jmpIfGreater (x : Word) : Statement (.jmpIfGreater x) := ⟨rfl, by simp [Instr.opcode], fun h => by cases h⟩
theorem jmpIfGreaterOrEqual (x : Word) : Statement (.jmpIfGreaterOrEqual x) := ⟨rfl, by simp [Instr.opcode], fun h => by cases h⟩
theorem memSetIndirect : Statement .memSetIndirect := ⟨rfl, by simp [Instr.opcode], fun _ => rfl⟩
theorem memGetIndirect : Statement .memGetIndirect := ⟨rfl, by simp [Instr.opcode], fun _ => rfl⟩
theorem call (x : Word) : Statement (.call x) := ⟨rfl, by simp [Instr.opcode], fun h => by cases h⟩
theorem ret : Statement .ret := ⟨rfl, by simp [Instr.opcode], fun _ => rfl⟩
theorem exit : Statement .exit := ⟨rfl, by simp [Instr.opcode], fun _ => rfl⟩

end Sys2Proof.Laws.RecordRoundTrip
end

