-- ==== Sys2Proof/Machine/Assembly.lean ====
section
/-! DEFINITION. The assembly notation of the spec (spec/30_encoding.md R83, R84, D23) as a function from text to
instructions. It is notation only: the core never sees text. What the grammar leaves open is fixed in log 12. -/

namespace Sys2Proof.Machine

/-- The 29 mnemonics in the order of their opcode values (30_encoding.md R74). -/
def mnemonics : List String :=
  ["PUSH", "ADD", "SUB", "MUL", "DIVMOD", "DUP", "SWAP", "ROT3", "DROP", "PRINT_NUM", "PRINT_CHAR", "DUMP"] ++
  ["MEM_SET_ABS", "MEM_GET_ABS", "COMPARE", "JMP", "JMP_IF_CARRY", "JMP_IF_NOT_CARRY", "JMP_IF_EQUAL"] ++
  ["JMP_IF_NOT_EQUAL", "JMP_IF_LESS", "JMP_IF_LESS_OR_EQUAL", "JMP_IF_GREATER", "JMP_IF_GREATER_OR_EQUAL"] ++
  ["MEM_SET_INDIRECT", "MEM_GET_INDIRECT", "CALL", "RETURN", "EXIT"]

/-- The text without its comments: `;;` begins one, which ends before the next newline. -/
def stripComments : Bool → List Char → List Char
  | _, [] => []
  | true, '\n' :: cs => '\n' :: stripComments false cs
  | true, _ :: cs => stripComments true cs
  | false, ';' :: ';' :: cs => stripComments true cs
  | false, c :: cs => c :: stripComments false cs

/-- The pieces of a text between the characters that satisfy `p`. -/
def splitAtChars (p : Char → Bool) : List Char → List (List Char)
  | [] => [[]]
  | c :: cs =>
    if p c then [] :: splitAtChars p cs
    else
      match splitAtChars p cs with
      | w :: ws => (c :: w) :: ws
      | [] => [[c]]

/-- The words of a text: its pieces between blanks, the empty ones left out. -/
def wordsOfText (cs : List Char) : List (List Char) :=
  (splitAtChars (fun c => c == ' ' || c == '\t' || c == '\r') cs).filter fun w => !w.isEmpty

/-- A decimal digit. -/
def decDigit (c : Char) : Option Nat := if '0' ≤ c ∧ c ≤ '9' then some (c.toNat - 48) else none

/-- A hexadecimal digit, in either case. -/
def hexDigit (c : Char) : Option Nat :=
  if '0' ≤ c ∧ c ≤ '9' then some (c.toNat - 48)
  else if 'a' ≤ c ∧ c ≤ 'f' then some (c.toNat - 87)
  else if 'A' ≤ c ∧ c ≤ 'F' then some (c.toNat - 55)
  else none

/-- The number that digits spell after the number `acc` already read. -/
def readDigitsFrom (base : Nat) (digit : Char → Option Nat) : Nat → List Char → Option Nat
  | acc, [] => some acc
  | acc, c :: cs =>
    match digit c with
    | some d => readDigitsFrom base digit (acc * base + d) cs
    | none => none

/-- The number that one or more digits spell. -/
def readDigits (base : Nat) (digit : Char → Option Nat) (cs : List Char) : Option Nat :=
  if cs.isEmpty then none else readDigitsFrom base digit 0 cs

/-- An operand (R83): a decimal number in `i32`, with an optional `-`, or a 32-bit pattern in hexadecimal. -/
def readOperand : List Char → Option Word
  | '-' :: cs => (readDigits 10 decDigit cs).bind fun n => if n ≤ 2 ^ 31 then some (wrap32 (-(n : Int))) else none
  | '0' :: 'x' :: cs => (readDigits 16 hexDigit cs).bind fun n => if n < 2 ^ 32 then some (BitVec.ofNat 32 n) else none
  | cs => (readDigits 10 decDigit cs).bind fun n => if n < 2 ^ 31 then some (BitVec.ofNat 32 n) else none

/-- The text after an optional `index:`, which is a comment recording the record index (R83). -/
def afterIndex (cs : List Char) : Option (List Char) :=
  match splitAtChars (· == ':') cs with
  | [text] => some text
  | [index, text] =>
    match wordsOfText index with
    | [w] => (readDigits 10 decDigit w).map fun _ => text
    | _ => none
  | _ => none

/-- A mnemonic and its operand words as an instruction: format `I` takes exactly one operand, format `N` none (R83). -/
def instrOfWords (mnemonic : List Char) (operands : List (List Char)) : Option Instr :=
  let opcode := BitVec.ofNat 32 (mnemonics.findIdx fun m => m.toList == mnemonic)
  match operands with
  | [] =>
    match decode ⟨opcode, 0⟩ with
    | .ok i => if i.format = .N then some i else none
    | .error _ => none
  | [x] =>
    match readOperand x with
    | none => none
    | some v =>
      match decode ⟨opcode, v⟩ with
      | .ok i => if i.format = .I then some i else none
      | .error _ => none
  | _ => none

/-- One instruction of the notation (R83). -/
def assembleOne (cs : List Char) : Option Instr :=
  match afterIndex cs with
  | none => none
  | some text =>
    match wordsOfText text with
    | m :: ops => instrOfWords m ops
    | [] => none

/-- A program of the notation (R83): one or more instructions separated by `;` or a newline. -/
def assemble (text : String) : Option (List Instr) :=
  (splitAtChars (fun c => c == ';' || c == '\n') (stripComments false text.toList)).mapM assembleOne

end Sys2Proof.Machine
end

