-- ==== Sys2Proof/Tests/Slice0.lean ====
section
/-! SUPPORT. The model's own tests, and for every obligation with hypotheses a named witness that meets them. Expected
results are those of spec/95_test_vectors.md (a vector's number stands in the test's comment) or worked by hand from the
rule named. In the model a stack is written top entry first, so the spec's `[a, b]` is `[b, a]` here. -/

namespace Sys2Proof.Tests

open Sys2Proof.Machine

/-! ### Helpers -/

/-- The reset state with an operand stack. -/
def withOs (os : List Word) : State := { State.reset with os := os }

/-- A small machine, `N = 3` and `MEM_SIZE = 4`, with a program and two stacks. -/
def tiny (prog : List Record) (os : List Word) (cs : List Index) : State :=
  { State.reset with cfg := ⟨3, 4, .signedRange, .noOp⟩, prog := prog, os := os, cs := cs }

/-- The state after one step that runs the instruction of the word `w`; none when there is no next state. -/
def after (s : State) (w : Nat) : Option State :=
  match step (s.withFetchWord 64 w) with
  | .next t => some t
  | .fault _ => none
  | .refused _ => none

/-- What one step leaves of `OS` and `run_state`. -/
def osAfter (s : State) (w : Nat) : Option (List Word × RunState) := (after s w).map fun t => (t.os, t.runState)

/-- The `pc` after the branch of the word `w` at index 3, in the five flag states of 95_test_vectors.md section 2.6. -/
def branchPcs (w : Nat) : List (Option Index) :=
  [⟨false, false, false, false⟩, ⟨false, true, false, false⟩, ⟨true, false, false, false⟩, ⟨false, false, true, false⟩,
    ⟨false, false, false, true⟩].map fun f => (after { State.reset with pc := 3, flags := f } w).map fun t => t.pc

/-! ### WellFormed: the checks refuse ill-formed terms. `Instr.wf` refuses nothing: an operand may be any `i32`. -/

theorem test_config_refuses_capacity_zero : Config.wf ⟨0, 4, .signedRange, .noOp⟩ = false := by decide
theorem test_config_refuses_capacity_2_32 : Config.wf ⟨4294967296, 4, .signedRange, .noOp⟩ = false := by decide
theorem test_config_refuses_memory_zero : Config.wf ⟨4, 0, .directional, .reverseTop3⟩ = false := by decide
theorem test_config_refuses_memory_over_2_31 : Config.wf ⟨4, 2147483649, .signedRange, .noOp⟩ = false := by decide
theorem test_config_accepts_bounds :
    Config.wf ⟨1, 2147483648, .signedRange, .noOp⟩ = true ∧ Config.wf ⟨4294967295, 1, .signedRange, .noOp⟩ = true ∧
    Config.standard.wf = true := by decide
theorem test_record_refuses_opcode_29 : Record.legal ⟨29#32, 0#32⟩ = false := by decide
theorem test_record_refuses_opcode_minus_1 : Record.legal ⟨0xFFFFFFFF#32, 0#32⟩ = false := by decide
theorem test_record_accepts_opcode_28 : Record.legal ⟨28#32, 7#32⟩ = true := by decide
theorem test_load_refuses_preload_over_memory : loadFits ⟨4, 1, .signedRange, .noOp⟩ [] [1#32, 2#32] = false := by decide
theorem test_load_refuses_length_2_32 (prog : List Record) (h : prog.length = 2 ^ 32) :
    loadFits Config.standard prog [] = false := by simp [loadFits, h]

/-! ### Decode: every constructor by a word written out from the encoding of 30_encoding.md R71 and R74. -/

theorem test_decode_stack :
    decodeTableWord 64 0xFFFFFFFD00000000 = some (.push (-3)) ∧ decodeTableWord 64 0x0000000000000005 = some .dup ∧
    decodeTableWord 64 0x0000000000000006 = some .swap ∧ decodeTableWord 64 0x0000000000000007 = some .rot3 ∧
    decodeTableWord 64 0x0000000000000008 = some .drop := by decide

theorem test_decode_arithmetic :
    decodeTableWord 64 0x0000000000000001 = some .add ∧ decodeTableWord 64 0x0000000000000002 = some .sub ∧
    decodeTableWord 64 0x0000000000000003 = some .mul ∧ decodeTableWord 64 0x0000000000000004 = some .divmod := by decide

theorem test_decode_output :
    decodeTableWord 64 0x0000000000000009 = some .printNum ∧ decodeTableWord 64 0x000000070000000A = some .printChar ∧
    decodeTableWord 64 0x000000000000000B = some .dump := by decide

theorem test_decode_memory :
    decodeTableWord 64 0x000000010000000C = some (.memSetAbs 1) ∧
    decodeTableWord 64 0x00FFFFFF0000000D = some (.memGetAbs 16777215) ∧
    decodeTableWord 64 0x0000000000000018 = some .memSetIndirect ∧
    decodeTableWord 64 0x0000000000000019 = some .memGetIndirect := by decide

theorem test_decode_compare_branch :
    decodeTableWord 64 0x000000000000000E = some .compare ∧ decodeTableWord 64 0xFFFFFFFF0000000F = some (.jmp (-1)) ∧
    decodeTableWord 64 0x0000000600000010 = some (.jmpIfCarry 6) ∧
    decodeTableWord 64 0x0000000900000011 = some (.jmpIfNotCarry 9) ∧
    decodeTableWord 64 0x0000000900000012 = some (.jmpIfEqual 9) ∧
    decodeTableWord 64 0x0000000900000013 = some (.jmpIfNotEqual 9) ∧
    decodeTableWord 64 0x0000000900000014 = some (.jmpIfLess 9) ∧
    decodeTableWord 64 0x0000000900000015 = some (.jmpIfLessOrEqual 9) ∧
    decodeTableWord 64 0x0000000400000016 = some (.jmpIfGreater 4) ∧
    decodeTableWord 64 0x0000000900000017 = some (.jmpIfGreaterOrEqual 9) := by decide

theorem test_decode_call_return_exit :
    decodeTableWord 64 0x000000060000001A = some (.call 6) ∧ decodeTableWord 64 0x000000000000001B = some .ret ∧
    decodeTableWord 64 0x000000000000001C = some .exit := by decide

/-- E5, E6, E7. -/
theorem test_decode_illegal :
    decodeTableWord 64 0x000000000000001D = none ∧ decodeTableWord 64 0x00000000FFFFFFFF = none ∧
    decodeTableWord 64 0x0000000001000000 = none := by decide

/-- E1's file bytes, and a record cut short (30_encoding.md R77). -/
theorem test_decode_bytes :
    decodeBytes [0x00, 0x00, 0x00, 0x00, 0x41, 0x00, 0x00, 0x00, 0x0a] = .ok (.push 65, [0x0a]) ∧
    decodeBytes [0x0a, 0x00, 0x00, 0x00, 0x00, 0x00, 0x00] = .error .truncated := ⟨rfl, rfl⟩

/-- E10's file bytes. -/
theorem test_encode_bytes : encodeBytes (.jmpIfGreater 4) = [0x16, 0x00, 0x00, 0x00, 0x04, 0x00, 0x00, 0x00] := by decide

/-! ### Stack instructions (95_test_vectors.md section 2.1) -/

/-- K1. -/
theorem test_push : osAfter (withOs [7]) 0xFFFFFFFD00000000 = some ([-3, 7], .running) := by decide
/-- S2. -/
theorem test_push_overflow :
    osAfter (tiny [] [3, 2, 1] []) 0x0000000400000000 = some ([3, 2, 1], .haltedOnFault .stackOverflow) := by decide
/-- K6. -/
theorem test_dup : osAfter (withOs [9, 4]) 5 = some ([9, 9, 4], .running) := by decide
/-- K7, K8 (with `N = 3`). -/
theorem test_dup_faults :
    osAfter (withOs []) 5 = some ([], .haltedOnFault .stackUnderflow) ∧
    osAfter (tiny [] [3, 2, 1] []) 5 = some ([3, 2, 1], .haltedOnFault .stackOverflow) := by decide
/-- K9. -/
theorem test_swap : osAfter (withOs [3, 2, 1]) 6 = some ([2, 3, 1], .running) := by decide
/-- K10. -/
theorem test_swap_underflow : osAfter (withOs [5]) 6 = some ([5], .haltedOnFault .stackUnderflow) := by decide
/-- K12, K15. -/
theorem test_rot3 :
    osAfter (withOs [7, 6, 5]) 7 = some ([7, 6, 5], .running) ∧
    osAfter (withOs [7, 6]) 7 = some ([7, 6], .haltedOnFault .stackUnderflow) := by decide
/-- K14. -/
theorem test_rot3_reverse :
    osAfter { withOs [7, 6, 5, 1] with cfg := ⟨1024, 4, .signedRange, .reverseTop3⟩ } 7 =
      some ([5, 6, 7, 1], .running) := by decide
/-- K16. -/
theorem test_drop : osAfter (withOs [2, 8]) 8 = some ([8], .running) := by decide
/-- K17. -/
theorem test_drop_underflow : osAfter (withOs []) 8 = some ([], .haltedOnFault .stackUnderflow) := by decide

/-! ### Arithmetic (section 2.2) -/

/-- What an ALU instruction leaves under a reading of the carry: the stack and the carry. -/
def aluAfter (reading : CarryReading) (os : List Word) (w : Nat) : Option (List Word × Bool) :=
  (after { withOs os with cfg := ⟨1024, 4, reading, .noOp⟩ } w).map fun t => (t.os, t.flags.carry)

/-- A3 under both readings, A1. -/
theorem test_add :
    aluAfter .signedRange [-1, -2147483648] 1 = some ([2147483647], true) ∧
    aluAfter .directional [-1, -2147483648] 1 = some ([2147483647], false) ∧
    aluAfter .signedRange [4, 3] 1 = some ([7], false) := by decide
/-- A24. -/
theorem test_add_underflow_keeps_carry :
    (after { withOs [5] with flags := ⟨false, false, false, true⟩ } 1).map (fun t => (t.os, t.flags.carry)) =
      some ([5], true) := by decide
/-- A9, A11 under both readings. -/
theorem test_sub :
    aluAfter .signedRange [5, 3] 2 = some ([-2], false) ∧
    aluAfter .signedRange [-2147483648, 0] 2 = some ([-2147483648], true) ∧
    aluAfter .directional [-2147483648, 0] 2 = some ([-2147483648], false) := by decide
/-- A10 under the directional reading. -/
theorem test_sub_below_range :
    aluAfter .directional [1, -2147483648] 2 = some ([2147483647], true) := by decide
/-- A22 under both readings. -/
theorem test_mul :
    aluAfter .signedRange [46341, -46341] 3 = some ([2147479015], true) ∧
    aluAfter .directional [46341, -46341] 3 = some ([2147479015], false) := by decide
/-- A15, A23. -/
theorem test_mul_low_word :
    aluAfter .signedRange [-7, 6] 3 = some ([-42], false) ∧
    aluAfter .signedRange [2147483647, 2147483647] 3 = some ([1], true) := by decide
/-- D2, D3, D11. -/
theorem test_divmod :
    osAfter (withOs [2, -7]) 4 = some ([-3, -1], .running) ∧ osAfter (withOs [-2, 7]) 4 = some ([-3, 1], .running) ∧
    osAfter (withOs [3, -2147483648]) 4 = some ([-715827882, -2], .running) := by decide
/-- D14, D16, D17. -/
theorem test_divmod_faults :
    osAfter (withOs [0, 10]) 4 = some ([0, 10], .haltedOnFault .divideError) ∧
    osAfter (withOs [-1, -2147483648]) 4 = some ([-1, -2147483648], .haltedOnFault .divideError) ∧
    osAfter (withOs [0]) 4 = some ([0], .haltedOnFault .stackUnderflow) := by decide

/-! ### Output (section 2.3) -/

/-- What one step leaves of `OS` and `out`. -/
def outAfter (s : State) (w : Nat) : Option (List Word × List ConsoleEvent) := (after s w).map fun t => (t.os, t.out)

/-- O1, after an earlier event. -/
theorem test_print_num :
    outAfter { withOs [-5, 12] with out := [.char 0x41] } 9 = some ([12], [.char 0x41, .num (-5)]) := by decide
/-- O4. -/
theorem test_print_num_underflow : outAfter (withOs []) 9 = some ([], []) := by decide
/-- O6, O7. -/
theorem test_print_char :
    outAfter (withOs [321]) 10 = some ([], [.char 0x41]) ∧ outAfter (withOs [-1]) 10 = some ([], [.char 0xFF]) := by decide
/-- O9. -/
theorem test_print_char_underflow : osAfter (withOs []) 10 = some ([], .haltedOnFault .stackUnderflow) := by decide
/-- O10. -/
theorem test_dump : outAfter (withOs [3, 2, 1]) 11 = some ([3, 2, 1], [.dump [3, 2, 1]]) := by decide
/-- O11. -/
theorem test_dump_empty : outAfter (withOs []) 11 = some ([], [.dump []]) := by decide
/-- The bytes of O1, O2, O3. -/
theorem test_num_bytes :
    renderEvent (.num (-5)) = [0x2D, 0x35, 0x0A] ∧
    renderEvent (.num (-2147483648)) = [0x2D, 0x32, 0x31, 0x34, 0x37, 0x34, 0x38, 0x33, 0x36, 0x34, 0x38, 0x0A] ∧
    renderEvent (.num 0) = [0x30, 0x0A] := by decide

/-! ### Memory (section 2.4) -/

/-- What one step leaves of `OS`, `M` and `run_state`. -/
def memAfter (s : State) (w : Nat) : Option (List Word × Memory × RunState) :=
  (after s w).map fun t => (t.os, t.mem, t.runState)

/-- M1, M2. -/
theorem test_mem_set_abs :
    memAfter (withOs [9]) 0x000000030000000C = some ([], [(3, 9)], .running) ∧
    memAfter (withOs [9]) 0x00FFFFFF0000000C = some ([], [(16777215, 9)], .running) := by decide
/-- M3, M4, M5. -/
theorem test_mem_set_abs_faults :
    memAfter (withOs [9]) 0x010000000000000C = some ([9], [], .haltedOnFault .illegalMemoryAccess) ∧
    osAfter (withOs [9]) 0xFFFFFFFF0000000C = some ([9], .haltedOnFault .illegalMemoryAccess) ∧
    osAfter (withOs []) 0xFFFFFFFF0000000C = some ([], .haltedOnFault .stackUnderflow) := by decide
/-- M6, M7. -/
theorem test_mem_get_abs :
    osAfter { withOs [] with mem := [(3, 9)] } 0x000000030000000D = some ([9], .running) ∧
    osAfter (withOs []) 0x000000640000000D = some ([0], .running) := by decide
/-- M8 (with `N = 3`), M9. -/
theorem test_mem_get_abs_faults :
    osAfter (tiny [] [3, 2, 1] []) 0x000000040000000D = some ([3, 2, 1], .haltedOnFault .stackOverflow) ∧
    osAfter (withOs []) 0x010000000000000D = some ([], .haltedOnFault .illegalMemoryAccess) := by decide
/-- M10, M11. -/
theorem test_mem_set_indirect :
    memAfter (withOs [5, 42]) 24 = some ([], [(5, 42)], .running) ∧
    memAfter (withOs [42, 5]) 24 = some ([], [(42, 5)], .running) := by decide
/-- M12, M13, M14. -/
theorem test_mem_set_indirect_faults :
    memAfter (withOs [16777216, 42]) 24 = some ([16777216, 42], [], .haltedOnFault .illegalMemoryAccess) ∧
    osAfter (withOs [-1, 42]) 24 = some ([-1, 42], .haltedOnFault .illegalMemoryAccess) ∧
    osAfter (withOs [5]) 24 = some ([5], .haltedOnFault .stackUnderflow) := by decide
/-- M15; M16 (with `N = 3`: no capacity check). -/
theorem test_mem_get_indirect :
    osAfter { withOs [5] with mem := [(5, 42)] } 25 = some ([42], .running) ∧
    osAfter { tiny [] [3, 2, 1] [] with mem := [(3, 42)] } 25 = some ([42, 2, 1], .running) := by decide
/-- M17, M18. -/
theorem test_mem_get_indirect_faults :
    osAfter (withOs [-1]) 25 = some ([-1], .haltedOnFault .illegalMemoryAccess) ∧
    osAfter (withOs []) 25 = some ([], .haltedOnFault .stackUnderflow) := by decide
/-- By hand from the canonical form: a cell overwritten, a cell written with 0, a cell between two others. -/
theorem test_memory_write_keeps_the_form :
    Memory.write [(3, 9)] 3 7 = [(3, 7)] ∧ Memory.write [(3, 9)] 3 0 = [] ∧
    Memory.write [(1, 5), (3, 9)] 2 7 = [(1, 5), (2, 7), (3, 9)] := by decide

/-! ### Comparison and branches (sections 2.5, 2.6) -/

/-- C3. -/
theorem test_compare_greater :
    (after { withOs [3, 5] with flags := ⟨true, false, false, true⟩ } 14).map (fun t => (t.os, t.flags)) =
      some ([], ⟨false, false, true, true⟩) := by decide
/-- C4 (signed), C7. -/
theorem test_compare_signed :
    (after (withOs [0, -1]) 14).map (fun t => (t.os, t.flags)) = some ([], ⟨false, true, false, false⟩) ∧
    (after { withOs [5] with flags := ⟨false, false, true, false⟩ } 14).map (fun t => (t.os, t.flags)) =
      some ([5], ⟨false, false, true, false⟩) := by decide

/-! The rows of the table of section 2.6: columns reset, less, equal, greater, carry. -/

theorem test_jmp : branchPcs 0x000000090000000F = [some 9, some 9, some 9, some 9, some 9] := by decide
/-- B2. -/
theorem test_jmp_negative : (after State.reset 0xFFFFFFFF0000000F).map (fun t => t.pc) = some 4294967295#32 := by decide
theorem test_jmp_if_carry : branchPcs 0x0000000900000010 = [some 4, some 4, some 4, some 4, some 9] := by decide
theorem test_jmp_if_not_carry : branchPcs 0x0000000900000011 = [some 9, some 9, some 9, some 9, some 4] := by decide
theorem test_jmp_if_equal : branchPcs 0x0000000900000012 = [some 4, some 4, some 9, some 4, some 4] := by decide
theorem test_jmp_if_not_equal : branchPcs 0x0000000900000013 = [some 9, some 9, some 4, some 9, some 9] := by decide
theorem test_jmp_if_less : branchPcs 0x0000000900000014 = [some 4, some 9, some 4, some 4, some 4] := by decide
theorem test_jmp_if_less_or_equal : branchPcs 0x0000000900000015 = [some 4, some 9, some 9, some 4, some 4] := by decide
theorem test_jmp_if_greater : branchPcs 0x0000000900000016 = [some 4, some 4, some 4, some 9, some 4] := by decide
theorem test_jmp_if_greater_or_equal :
    branchPcs 0x0000000900000017 = [some 4, some 4, some 9, some 9, some 4] := by decide

/-! ### Call, return, exit (section 2.7) -/

/-- What one step leaves of `CS`, `pc` and `run_state`. -/
def csAfter (s : State) (w : Nat) : Option (List Index × Index × RunState) :=
  (after s w).map fun t => (t.cs, t.pc, t.runState)

/-- R1. -/
theorem test_call : csAfter { State.reset with pc := 2 } 0x000000060000001A = some ([3], 6, .running) := by decide
/-- R2 (with `N = 3`). -/
theorem test_call_overflow :
    csAfter { tiny [] [] [7, 7, 7] with pc := 2 } 0x000000060000001A =
      some ([7, 7, 7], 3, .haltedOnFault .stackOverflow) := by decide
/-- R4. -/
theorem test_return : csAfter (tiny [] [] [3]) 27 = some ([], 3, .running) := by decide
/-- R5. -/
theorem test_return_underflow : csAfter State.reset 27 = some ([], 1, .haltedOnFault .stackUnderflow) := by decide
/-- R6, and the exit codes of R6 and R8. -/
theorem test_exit :
    osAfter (withOs [9, 4]) 28 = some ([4], .terminated 9) ∧ exitCode (.terminated 9) = some 9 ∧
    exitCode (.terminated (-1)) = some (-1) := by decide
/-- R7. -/
theorem test_exit_empty : osAfter (withOs []) 28 = some ([], .terminated 0) := by decide

/-! ### Fetch, faults and halt (section 2.8) -/

/-- F4: E5 executed. -/
theorem test_illegal_instruction :
    (after (withOs [2, 1]) 29).map (fun t => (t.pc, t.runState, t.diag)) =
      some (1, .haltedOnFault .illegalInstruction, [⟨.illegalInstruction, [2, 1], []⟩]) := by decide
/-- H1. -/
theorem test_halt_at_reset : step State.reset = .next { State.reset with runState := .haltedNormally } := rfl
/-- H3. -/
theorem test_halt_far_past_end :
    step { tiny [⟨0, 0⟩] [] [] with pc := 4294967295#32 } =
      .next { tiny [⟨0, 0⟩] [] [] with pc := 4294967295#32, runState := .haltedNormally } := rfl
/-- H4. -/
theorem test_no_step_from_final_state :
    step { State.reset with runState := .haltedNormally } = .fault (.finalState .haltedNormally) := rfl
/-- A fault's report lists both stacks top first (F2's report, with a call stack by hand). -/
theorem test_fault_report :
    (after (tiny [] [0, 10] [6, 5]) 4).map (fun t => (t.diag, t.pc)) = some ([⟨.divideError, [0, 10], [6, 5]⟩], 1) := by
  decide
/-- The step of `core` is the step of the model. -/
theorem test_core_step : core.step core.reset = .next { State.reset with runState := .haltedNormally } := rfl

/-! ### Load (section 2.9) -/

/-- L1, L6 and L9. -/
theorem test_load_accepts :
    loadImage Config.standard [0x43, 0x53, 0x56, 0x00, 0, 0, 0, 0] = .ok ⟨[], []⟩ ∧
    loadImage Config.standard [0x43, 0x53, 0x56, 0x00, 0, 0, 0, 0, 5, 0, 0, 0, 0xFF, 0xFF] = .ok ⟨[], [5]⟩ ∧
    loadImage Config.standard [0x43, 0x53, 0x56, 0x00, 1, 0, 0, 0, 0x63, 0, 0, 0, 0, 0, 0, 0] = .ok ⟨[⟨99, 0⟩], []⟩ :=
  ⟨rfl, rfl, rfl⟩

/-- L7. -/
theorem test_load_preloads_memory :
    (boot Config.standard [0x43, 0x53, 0x56, 0x00, 0, 0, 0, 0, 0xFE, 0xFF, 0xFF, 0xFF]).toOption.map
      (fun s => (s.readCell 0, s.readCell 1, s.runState)) = some (-2, 0, .running) := by decide

/-- L2, L3, L4, L5 and L8. -/
theorem test_load_rejects :
    loadImage Config.standard [0x43, 0x53, 0x56, 0x01, 0, 0, 0, 0] = .error .badMagic ∧
    loadImage Config.standard [0x00, 0x56, 0x53, 0x43, 0, 0, 0, 0] = .error .badMagic ∧
    loadImage Config.standard [0x43, 0x53, 0x56, 0x00, 0, 0, 0] = .error .shortHeader ∧
    loadImage Config.standard [0x43, 0x53, 0x56, 0x00, 1, 0, 0, 0] = .error .missingRecords ∧
    loadImage ⟨4, 1, .signedRange, .noOp⟩ [0x43, 0x53, 0x56, 0x00, 0, 0, 0, 0, 1, 0, 0, 0, 2, 0, 0, 0] =
      .error .preloadTooLarge := ⟨rfl, rfl, rfl, rfl, rfl⟩

/-! ### The assembly notation (30_encoding.md R83) -/

/-- The source's own text of P1, and S6's program with its indices and a comment. -/
theorem test_assemble :
    assemble "PUSH 65; PRINT_CHAR" = some [.push 65, .printChar] ∧
    assemble "0: CALL 2; 1: EXIT; 2: RETURN ;; end" = some [.call 2, .exit, .ret] ∧
    assemble "PUSH -3\nPUSH 0x7FFFFFFF" = some [.push (-3), .push 2147483647] := by decide

/-- An operand where none is taken, none where one is, a name that is no mnemonic, a number outside `i32`. -/
theorem test_assemble_refuses :
    assemble "ADD 1" = none ∧ assemble "JMP" = none ∧ assemble "push 1" = none ∧ assemble "PUSH 2147483648" = none := by
  decide

/-! ### Witnesses: states and operands that meet the hypotheses of each obligation, clause by clause, at boundary values.
In the machine `tiny`, `N = 3` and the last cell is 3. An obligation without hypotheses has none here. -/

theorem witness_DecodedRecordIsTheEncodersUpToIgnoredOperand :
    (decode ⟨0, 5⟩ = .ok (.push 5) ∧ (Instr.push 5).format = .I) ∧
    (decode ⟨28, 7⟩ = .ok .exit ∧ Instr.exit.format = .N) := ⟨⟨rfl, rfl⟩, rfl, rfl⟩

theorem witness_DecodeFailsExactlyOnOpcodesOutsideTheMap :
    ¬(0 ≤ (29#32).toInt ∧ (29#32).toInt ≤ 28) ∧ ¬(0 ≤ (0xFFFFFFFF#32).toInt ∧ (0xFFFFFFFF#32).toInt ≤ 28) := by decide

theorem witness_StepRunsTheDecodedInstruction :
    (tiny [⟨28, 7⟩] [] []).runState = .running ∧ (tiny [⟨28, 7⟩] [] []).prog[(tiny [⟨28, 7⟩] [] []).pc.toNat]? = some ⟨28, 7⟩ ∧
    decode ⟨28, 7⟩ = .ok .exit ∧ Instr.exit.wf = true := ⟨rfl, rfl, rfl, rfl⟩

theorem witness_StepAtOrPastTheEndHaltsNormally :
    ((tiny [] [] []).runState = .running ∧ (tiny [] [] []).progLen ≤ (tiny [] [] []).pc.toNat) ∧
    ({ tiny [⟨0, 0⟩] [] [] with pc := 1 }.progLen ≤ { tiny [⟨0, 0⟩] [] [] with pc := 1 }.pc.toNat) := by decide

theorem witness_FetchedIllegalOpcodeFaults :
    (tiny [⟨29, 0⟩] [] []).runState = .running ∧ (tiny [⟨29, 0⟩] [] []).prog[(tiny [⟨29, 0⟩] [] []).pc.toNat]? = some ⟨29, 0⟩ ∧
    ¬(0 ≤ (29#32).toInt ∧ (29#32).toInt ≤ 28) := by decide

theorem witness_RunningCoreAlwaysStepsAndFinalStatesNever :
    (tiny [⟨1, 0⟩] [] []).runState = .running ∧ { tiny [] [] [] with runState := .terminated 0 }.runState ≠ .running := by
  decide

theorem witness_FaultingStepWritesOnlyPcRunStateAndReport :
    let t := { tiny [⟨1, 0⟩] [5] [2] with
      pc := 1, runState := .haltedOnFault .stackUnderflow, diag := [⟨.stackUnderflow, [5], [2]⟩] }
    step (tiny [⟨1, 0⟩] [5] [2]) = .next t ∧ t.runState = .haltedOnFault .stackUnderflow := ⟨rfl, rfl⟩

theorem witness_FetchWordIsTheNextInstructionRun : decodeTableWord 64 0x000000070000001C = some .exit := by decide

theorem witness_PushPushesItsOperandOrOverflows :
    (tiny [] [2, 1] []).sp < (tiny [] [2, 1] []).cfg.stackCap ∧
    (tiny [] [3, 2, 1] []).cfg.stackCap ≤ (tiny [] [3, 2, 1] []).sp := by decide

theorem witness_DupDuplicatesTheTop :
    ((tiny [] [2, 1] []).os = 2 :: [1] ∧ (tiny [] [2, 1] []).sp < (tiny [] [2, 1] []).cfg.stackCap) ∧
    (tiny [] [] []).sp = 0 ∧
    (0 < (tiny [] [3, 2, 1] []).sp ∧ (tiny [] [3, 2, 1] []).cfg.stackCap ≤ (tiny [] [3, 2, 1] []).sp) := by decide

theorem witness_SwapExchangesTheTopTwo :
    (tiny [] [2, 1] []).os = 2 :: 1 :: [] ∧ (tiny [] [1] []).sp < 2 := by decide

theorem witness_Rot3UnderBothReadings :
    ((tiny [] [3, 2, 1] []).os = 3 :: 2 :: 1 :: [] ∧ (tiny [] [3, 2, 1] []).cfg.rot3Reading = .noOp) ∧
    ({ tiny [] [3, 2, 1] [] with cfg := ⟨3, 4, .directional, .reverseTop3⟩ }.cfg.rot3Reading = .reverseTop3) ∧
    (tiny [] [2, 1] []).sp < 3 := by decide

theorem witness_DropDiscardsTheTop : (tiny [] [1] []).os = 1 :: [] ∧ (tiny [] [] []).sp = 0 := by decide

/-- For ADD, SUB, MUL and COMPARE alike. -/
theorem witness_two_operand_instructions :
    (tiny [] [-1, -2147483648] []).os = -1 :: -2147483648 :: [] ∧ (tiny [] [1] []).sp < 2 := by decide

theorem witness_CarryMeansTheWrappedResultDiffers :
    carryOut .directional .add (2 ^ 31) = true ∧ carryOut .directional .sub (-2 ^ 31 - 1) = true := by decide

theorem witness_DivmodPushesRemainderThenQuotient :
    ((-1#32).toInt ≠ 0 ∧ ¬((2147483647#32).toInt = -2 ^ 31 ∧ (-1#32).toInt = -1)) ∧
    (0#32).toInt = 0 ∧ ((0x80000000#32).toInt = -2 ^ 31 ∧ (0xFFFFFFFF#32).toInt = -1) ∧
    (tiny [] [0] []).sp < 2 := by decide

theorem witness_DivmodQuotientAndRemainderLaws :
    (tiny [] [1, -2147483648] []).os = 1 :: -2147483648 :: [] ∧ (1#32).toInt ≠ 0 ∧
    ¬((0x80000000#32).toInt = -2 ^ 31 ∧ (1#32).toInt = -1) := by decide

theorem witness_AddThenSubRestoresAndAddMulCommute :
    let s := tiny [] [1, 2147483647] []
    let t := { tiny [] [-2147483648] [] with flags := ⟨false, false, false, true⟩ }
    let u := { tiny [] [1, -2147483648] [] with flags := ⟨false, false, false, true⟩ }
    s.os = 1 :: 2147483647 :: [] ∧ exec .add s = .next t ∧ exec (.push 1) t = .next u ∧ u.os = 1 :: t.os :=
  ⟨rfl, rfl, rfl, rfl⟩

/-- For PRINT_NUM, PRINT_CHAR, EXIT alike. -/
theorem witness_one_operand_instructions : (tiny [] [-1] []).os = -1 :: [] ∧ (tiny [] [] []).sp = 0 := by decide

theorem witness_MemSetAbsStoresTheTop :
    ((tiny [] [9] []).os = 9 :: [] ∧ 0 ≤ (3#32).toInt ∧ (3#32).toInt < ((tiny [] [9] []).cfg.memSize : Int)) ∧
    (0 < (tiny [] [9] []).sp ∧ ¬(0 ≤ (4#32).toInt ∧ (4#32).toInt < ((tiny [] [9] []).cfg.memSize : Int))) ∧
    (tiny [] [] []).sp = 0 := by decide

theorem witness_MemGetAbsPushesTheCell :
    ((tiny [] [2, 1] []).sp < (tiny [] [2, 1] []).cfg.stackCap ∧ 0 ≤ (0#32).toInt ∧
      (0#32).toInt < ((tiny [] [2, 1] []).cfg.memSize : Int)) ∧
    ¬(0 ≤ (-1#32).toInt ∧ (-1#32).toInt < ((tiny [] [2, 1] []).cfg.memSize : Int)) ∧
    (tiny [] [3, 2, 1] []).cfg.stackCap ≤ (tiny [] [3, 2, 1] []).sp := by decide

theorem witness_MemSetIndirectStoresTheSecondAtTheTop :
    ((tiny [] [3, 9] []).os = 3 :: 9 :: [] ∧ 0 ≤ (3#32).toInt ∧ (3#32).toInt < ((tiny [] [3, 9] []).cfg.memSize : Int)) ∧
    ((tiny [] [4, 9] []).os = 4 :: 9 :: [] ∧ ¬(0 ≤ (4#32).toInt ∧ (4#32).toInt < ((tiny [] [4, 9] []).cfg.memSize : Int))) ∧
    (tiny [] [3] []).sp < 2 := by decide

theorem witness_MemGetIndirectReplacesTheAddress :
    ((tiny [] [3, 2, 1] []).os = 3 :: [2, 1] ∧ 0 ≤ (3#32).toInt ∧
      (3#32).toInt < ((tiny [] [3, 2, 1] []).cfg.memSize : Int)) ∧
    ((tiny [] [-1] []).os = -1 :: [] ∧ ¬(0 ≤ (-1#32).toInt ∧ (-1#32).toInt < ((tiny [] [-1] []).cfg.memSize : Int))) ∧
    (tiny [] [] []).sp = 0 := by decide

theorem witness_InstructionsStoreOnlyToTheComputedCell :
    (exec (.memSetAbs 3) (tiny [] [9] []) = .next { tiny [] [] [] with mem := [(3, 9)] } ∧
      storesTo (.memSetAbs 3) (tiny [] [9] []) ≠ some 2 ∧ (tiny [] [9] []).mem.wf = true ∧
      cellOf (tiny [] [9] []).cfg 3 = some 3) ∧
    (exec .memSetIndirect (tiny [] [0, 9] []) = .next { tiny [] [] [] with mem := [(0, 9)] } ∧
      (tiny [] [0, 9] []).os = 0 :: 9 :: [] ∧ cellOf (tiny [] [0, 9] []).cfg 0 = some 0) :=
  ⟨⟨rfl, by decide, rfl, rfl⟩, rfl, rfl, rfl⟩

theorem witness_MemoryReadsTheLastValueWritten : Memory.wf [(1, 5), (3, 9)] = true := by decide

theorem witness_EqualReadsMeanEqualMemories :
    Memory.wf [(3, 9)] = true ∧ Memory.wf (Memory.write [] 3 9) = true ∧
    ∀ a, Memory.read [(3, 9)] a = (Memory.write [] 3 9).read a := ⟨rfl, rfl, fun _ => rfl⟩

theorem witness_EveryCellHasAnAddress :
    Config.wf ⟨1, 2147483648, .signedRange, .noOp⟩ = true ∧ 2147483647 < 2147483648 := by decide

theorem witness_OrEqualJumpsAfterCompare :
    ((tiny [] [5, 3] []).os = 5 :: 3 :: [] ∧
      exec .compare (tiny [] [5, 3] []) = .next { tiny [] [] [] with flags := ⟨false, true, false, false⟩ }) ∧
    ((tiny [] [] []).flags.equal = false ∧ (tiny [] [] []).flags.less = false ∧ (tiny [] [] []).flags.greater = false) :=
  ⟨⟨rfl, rfl⟩, rfl, rfl, rfl⟩

theorem witness_CallPushesThePcAndJumps :
    (tiny [] [] [2, 1]).csp < (tiny [] [] [2, 1]).cfg.stackCap ∧
    (tiny [] [] [3, 2, 1]).cfg.stackCap ≤ (tiny [] [] [3, 2, 1]).csp := by decide

theorem witness_ReturnPopsThePcAndUndoesCall :
    (tiny [] [] [3]).cs = 3 :: [] ∧ (tiny [] [] []).csp = 0 ∧
    ((tiny [] [] [1]).csp < (tiny [] [] [1]).cfg.stackCap ∧
      exec (.call 9) (tiny [] [] [1]) = .next { tiny [] [] [0, 1] with pc := 9 } ∧
      (tiny [] [4] [0, 1]).cs = { tiny [] [] [0, 1] with pc := 9 }.cs) := ⟨rfl, rfl, by decide, rfl, rfl⟩

theorem witness_ComparisonFlagsAreWrittenOnlyByCompare :
    let s := tiny [⟨14, 0⟩] [5, 5] []
    let t := { tiny [⟨14, 0⟩] [] [] with pc := 1, flags := ⟨true, false, false, false⟩ }
    fetch s = some ⟨14, 0⟩ ∧ decode ⟨14, 0⟩ = .ok .compare ∧ step s = .next t ∧ t.runState = .running :=
  ⟨rfl, rfl, rfl, rfl⟩

theorem witness_CarryIsWrittenOnlyByAddSubMul :
    let s := tiny [⟨1, 0⟩] [1, 2147483647] []
    let t := { tiny [⟨1, 0⟩] [-2147483648] [] with pc := 1, flags := ⟨false, false, false, true⟩ }
    fetch s = some ⟨1, 0⟩ ∧ step s = .next t ∧ t.runState = .running ∧ s.os = 1 :: 2147483647 :: [] ∧
    decode ⟨1, 0⟩ = .ok .add ∧ decode ⟨2, 0⟩ = .ok .sub ∧ decode ⟨3, 0⟩ = .ok .mul := ⟨rfl, rfl, rfl, rfl, rfl, rfl, rfl⟩

theorem witness_FlagsAreReadOnlyByConditionalJumps :
    ((∀ x, Instr.drop ≠ .jmpIfCarry x ∧ Instr.drop ≠ .jmpIfNotCarry x ∧ Instr.drop ≠ .jmpIfEqual x ∧
        Instr.drop ≠ .jmpIfNotEqual x ∧ Instr.drop ≠ .jmpIfLess x ∧ Instr.drop ≠ .jmpIfLessOrEqual x ∧
        Instr.drop ≠ .jmpIfGreater x ∧ Instr.drop ≠ .jmpIfGreaterOrEqual x) ∧
      Instr.drop ≠ .add ∧ Instr.drop ≠ .sub ∧ Instr.drop ≠ .mul ∧ Instr.drop ≠ .compare ∧
      exec .drop (tiny [] [1] []) = .next (tiny [] [] [])) ∧
    exec .add (tiny [] [4, 3] []) = .next (tiny [] [7] []) ∧
    exec .compare (tiny [] [5, 3] []) = .next { tiny [] [] [] with flags := ⟨false, true, false, false⟩ } ∧
    ((∀ r i, fetch (tiny [⟨29, 0⟩] [] []) = some r → decode r ≠ .ok i) ∧
      step (tiny [⟨29, 0⟩] [] []) = .next { tiny [⟨29, 0⟩] [] [] with
        pc := 1, runState := .haltedOnFault .illegalInstruction, diag := [⟨.illegalInstruction, [], []⟩] }) ∧
    Instr.jmpIfCarry 9 = .jmpIfCarry 9 :=
  ⟨⟨fun _ => by simp, by decide, by decide, by decide, by decide, rfl⟩, rfl, rfl,
    ⟨fun r i hr hd => by (cases hr; cases hd), rfl⟩, rfl⟩

theorem witness_OnlyMemoryInstructionsReachTheMemory :
    let s := tiny [⟨8, 0⟩] [1] []
    (fetch s = some ⟨8, 0⟩ ∧ decode ⟨8, 0⟩ = .ok .drop ∧
      ((∀ a, Instr.drop ≠ .memSetAbs a ∧ Instr.drop ≠ .memGetAbs a) ∧ Instr.drop ≠ .memSetIndirect ∧
        Instr.drop ≠ .memGetIndirect) ∧
      step s = .next { tiny [⟨8, 0⟩] [] [] with pc := 1 }) ∧
    (⟨[], [6, 7]⟩ : Loaded).image[1]? = some 7 := ⟨⟨rfl, rfl, by simp, rfl⟩, rfl⟩

theorem witness_ProgramStoreIsReadOnlyByTheFetch :
    exec .drop (tiny [⟨8, 0⟩] [1] []) = .next (tiny [⟨8, 0⟩] [] []) ∧
    Reaches (tiny [⟨8, 0⟩] [1] []) { tiny [⟨8, 0⟩] [] [] with pc := 1 } := ⟨rfl, .tail (.refl _) rfl⟩

theorem witness_PcIsTheNextIndexUnlessAControlTransferWroteIt :
    let s := tiny [⟨15, 9⟩] [] []
    (fetch s = some ⟨15, 9⟩ ∧ decode ⟨15, 9⟩ = .ok (.jmp 9) ∧ step s = .next { s with pc := 9 }) ∧ s.Inv :=
  ⟨⟨rfl, rfl, rfl⟩, by decide, by decide, by decide, by decide, by decide, by decide, by decide, by decide⟩

theorem witness_CallStackChangesOnlyByCallAndReturn :
    step (tiny [⟨26, 9⟩] [] []) = .next { tiny [⟨26, 9⟩] [] [1] with pc := 9 } := rfl

theorem witness_ConsoleStreamIsAppendOnlyAndNeverRead :
    step (tiny [⟨11, 0⟩] [] []) = .next { tiny [⟨11, 0⟩] [] [] with pc := 1, out := [.dump []] } := rfl

theorem witness_EveryStepKeepsTheInvariant :
    let s := tiny [⟨1, 0⟩] [5] []
    s.Inv ∧ step s = .next { tiny [⟨1, 0⟩] [5] [] with
      pc := 1, runState := .haltedOnFault .stackUnderflow, diag := [⟨.stackUnderflow, [5], []⟩] } :=
  ⟨⟨by decide, by decide, by decide, by decide, by decide, by decide, by decide, by decide⟩, rfl⟩

/-- L6's image. -/
theorem witness_AcceptedImageBootsIntoAGoodRunningState :
    Config.standard.wf = true ∧
    boot Config.standard [0x43, 0x53, 0x56, 0x00, 0, 0, 0, 0, 5, 0, 0, 0, 0xFF, 0xFF] =
      .ok { State.reset with mem := [(0, 5)] } := ⟨by decide, rfl⟩

theorem witness_ReachableStacksStayWithinCapacity :
    let c : Config := ⟨3, 4, .signedRange, .noOp⟩
    let p : Loaded := ⟨[⟨0, 5⟩], [0, 0, 0, 1]⟩
    c.wf = true ∧ loadFits c p.prog p.image = true ∧
    Reaches (bootState c p) { bootState c p with os := [5], pc := 1 } := ⟨by decide, by decide, .tail (.refl _) rfl⟩

theorem witness_ImageOfAProgramLoadsBack :
    loadFits ⟨3, 4, .signedRange, .noOp⟩ [⟨99, -1⟩] [0, 0, 0, 1] = true ∧ [1#8, 2#8, 3#8].length < 4 := by decide

/-- L9's image with a preload of one word. -/
theorem witness_LoadedRecordsAndWordsComeFromTheirOffsets :
    loadImage ⟨3, 1, .signedRange, .noOp⟩
      [0x43, 0x53, 0x56, 0x00, 1, 0, 0, 0, 0x63, 0, 0, 0, 0, 0, 0, 0, 0xFE, 0xFF, 0xFF, 0xFF] =
        .ok ⟨[⟨99, 0⟩], [-2]⟩ := rfl

end Sys2Proof.Tests
end

/-! # The state's components over a step (spec/10_state.md R29 to R44)

Which instructions reach the flags and the memory, and the capacity of both stacks. Every proof about all instructions
goes by cases on `Effect` (Laws/Exec.lean); the faults are treated once, by `Raises.of_same_stacks`. -/

namespace Sys2Proof.Machine

/-! ### The step, by what it runs -/

theorem step_of_fetch_none {s : State} (hr : s.runState = .running) (hf : fetch s = none) :
    step s = .next (haltNormally s) := by
  simp only [step, hr, hf]

theorem step_of_decode_error {s : State} {r : Record} {e : DecodeError} (hr : s.runState = .running)
    (hf : fetch s = some r) (hd : decode r = .error e) :
    step s = .next (takeFault .illegalInstruction s.advance) := by
  simp only [step, hr, hf, hd, applyResult_fault]

theorem step_of_decode_ok {s : State} {r : Record} {i : Instr} (hr : s.runState = .running) (hf : fetch s = some r)
    (hd : decode r = .ok i) : step s = exec i s.advance := by
  simp only [step, hr, hf, hd]

theorem running_of_step {s t : State} (h : step s = .next t) : s.runState = .running := (step_cases h).1

/-- A step that fetched an instruction is that instruction's execution. -/
theorem exec_of_step {s t : State} {r : Record} {i : Instr} (h : step s = .next t) (hf : fetch s = some r)
    (hd : decode r = .ok i) : exec i s.advance = .next t := by
  rw [← step_of_decode_ok (running_of_step h) hf hd, h]

/-- A step halts normally, takes a fault, or has the effect of the instruction it fetched. -/
theorem step_halt_fault_or_effect {s t : State} (h : step s = .next t) :
    t = haltNormally s ∨ (∃ k, t = takeFault k s.advance) ∨
      ∃ r i, fetch s = some r ∧ decode r = .ok i ∧ Effect s.advance i t := by
  obtain ⟨-, ⟨-, ht⟩ | ⟨-, -, -, -, ht⟩ | ⟨r, i, hf, hd, hx⟩⟩ := step_cases h
  · exact .inl ht
  · exact .inr (.inl ⟨_, ht⟩)
  · obtain ⟨k, -, ht⟩ | heff := exec_faultOrEffect hx
    · exact .inr (.inl ⟨k, ht⟩)
    · exact .inr (.inr ⟨r, i, hf, hd, heff⟩)

/-- A step after which the core still runs had the effect of the instruction it fetched. -/
theorem effect_of_step_running {s t : State} {r : Record} {i : Instr} (h : step s = .next t)
    (ht : t.runState = .running) (hf : fetch s = some r) (hd : decode r = .ok i) : Effect s.advance i t := by
  obtain ⟨k, -, rfl⟩ | heff := exec_faultOrEffect (exec_of_step h hf hd)
  · cases ht
  · exact heff

/-! ### What an effect leaves alone -/

section
variable {s t : State} {i : Instr}

theorem Effect.cfg_eq (h : Effect s i t) : t.cfg = s.cfg := by cases h <;> rfl

theorem Effect.runState_eq (h : Effect s i t) (hi : i ≠ .exit) : t.runState = s.runState := by
  cases h with
  | exitTop | exitEmpty => exact absurd rfl hi
  | _ => rfl

/-- Only COMPARE writes `E`, `L` and `G`. -/
theorem Effect.comparisonFlags_eq (h : Effect s i t) (hi : i ≠ .compare) :
    t.flags.equal = s.flags.equal ∧ t.flags.less = s.flags.less ∧ t.flags.greater = s.flags.greater := by
  cases h with
  | compare => exact absurd rfl hi
  | _ => exact ⟨rfl, rfl, rfl⟩

/-- Only the ALU instructions write `C`. -/
theorem Effect.carry_eq (h : Effect s i t) (hi : aluOf i = none) : t.flags.carry = s.flags.carry := by
  cases h with
  | alu _ _ _ _ _ hop => cases hi.symm.trans hop
  | _ => rfl

end

/-- Every instruction but EXIT, when it completes, leaves the core running. -/
theorem runState_of_step_effect {s t : State} {i : Instr} (h : step s = .next t) (heff : Effect s.advance i t)
    (hi : i ≠ .exit) : t.runState = .running := by
  rw [heff.runState_eq hi, State.advance_runState, running_of_step h]

theorem compareFlags_exactly_one (f : Flags) (a b : Word) :
    ((compareFlags f a b).equal = true ∧ (compareFlags f a b).less = false ∧ (compareFlags f a b).greater = false) ∨
    ((compareFlags f a b).equal = false ∧ (compareFlags f a b).less = true ∧ (compareFlags f a b).greater = false) ∨
    ((compareFlags f a b).equal = false ∧ (compareFlags f a b).less = false ∧ (compareFlags f a b).greater = true) := by
  simp only [compareFlags, decide_eq_true_eq, decide_eq_false_iff_not]
  omega

/-- Settles O44: a step that does not stop has an effect, and only COMPARE's reaches `E`, `L` and `G`. -/
theorem comparisonFlagsAreWrittenOnlyByCompare : Obligations.ComparisonFlagsAreWrittenOnlyByCompare := by
  refine ⟨fun s t h => ?_, fun s t r hf hd h ht => ?_⟩
  · obtain rfl | ⟨k, rfl⟩ | ⟨r, i, hf, hd, heff⟩ := step_halt_fault_or_effect h
    · exact .inl ⟨rfl, rfl, rfl⟩
    · exact .inl ⟨rfl, rfl, rfl⟩
    · by_cases hi : i = .compare
      · subst hi
        exact .inr ⟨runState_of_step_effect h heff (by decide), r, hf, hd⟩
      · exact .inl (heff.comparisonFlags_eq hi)
  · cases effect_of_step_running h ht hf hd with
    | compare b a os => exact compareFlags_exactly_one s.flags a b
    | alu _ _ _ _ _ hi | branchTaken _ _ _ hi | branchNotTaken _ _ _ hi => cases hi

/-! ### The carry -/

theorem needs_of_aluOf {i : Instr} {op : AluOp} (h : aluOf i = some op) : needs i = 2 := by
  cases i <;> cases h <;> rfl

theorem aluOf_eq_some {i : Instr} {op : AluOp} (h : aluOf i = some op) : i = .add ∨ i = .sub ∨ i = .mul := by
  cases i <;> cases h <;> simp

/-- Two operands are there, so the ALU instruction completes and writes the carry of its exact result. -/
theorem carry_of_step_alu {s t : State} {r : Record} {i : Instr} {op : AluOp} {b a : Word} {os : List Word}
    (hi : aluOf i = some op) (h : step s = .next t) (hf : fetch s = some r) (hos : s.os = b :: a :: os)
    (hd : decode r = .ok i) : t.flags.carry = carryOut s.cfg.carryReading op (op.exact a.toInt b.toInt) := by
  have hx := exec_of_step h hf hd
  rw [exec_of_effect (s := s.advance) (.alu i op b a os hi hos)] at hx
  cases hx
  rfl

/-- Settles O45: a step that does not stop has an effect, and only an ALU instruction's reaches `C`. -/
theorem carryIsWrittenOnlyByAddSubMul : Obligations.CarryIsWrittenOnlyByAddSubMul := by
  refine ⟨fun s t h => ?_, fun s t r hf h _ b a rest hos => ?_⟩
  · obtain rfl | ⟨k, rfl⟩ | ⟨r, i, hf, hd, heff⟩ := step_halt_fault_or_effect h
    · exact .inl rfl
    · exact .inl rfl
    · cases hop : aluOf i with
      | none => exact .inl (heff.carry_eq hop)
      | some op =>
        have hi : i ≠ .exit := by rintro rfl; cases hop
        exact .inr ⟨runState_of_step_effect h heff hi, r, hf, by simpa [hd] using aluOf_eq_some hop⟩
  · exact ⟨carry_of_step_alu rfl h hf hos, carry_of_step_alu rfl h hf hos, carry_of_step_alu rfl h hf hos⟩

/-! ### Replacing a component no fault depends on -/

/-- The faults of R221 depend on the parameters and on the two stacks alone. -/
theorem Raises.of_same_stacks {s s' : State} {i : Instr} {k : FaultKind} (h : Raises s i k) (hcfg : s'.cfg = s.cfg)
    (hos : s'.os = s.os) (hcs : s'.cs = s.cs) : Raises s' i k := by
  obtain ⟨cfg, prog, os, cs, mem, pc, flags, runState, out, diag⟩ := s
  obtain ⟨cfg', prog', os', cs', mem', pc', flags', runState', out', diag'⟩ := s'
  cases hcfg; cases hos; cases hcs
  cases h with
  | short i h => exact .short i h
  | pushFull x h => exact .pushFull x h
  | dupFull v os h1 h2 => exact .dupFull v os h1 h2
  | divisor b a os h1 h2 => exact .divisor b a os h1 h2
  | memSetAbs x v os h1 h2 => exact .memSetAbs x v os h1 h2
  | memGetAbsFull x h => exact .memGetAbsFull x h
  | memGetAbs x h1 h2 => exact .memGetAbs x h1 h2
  | memSetIndirect x v os h1 h2 => exact .memSetIndirect x v os h1 h2
  | memGetIndirect x os h1 h2 => exact .memGetIndirect x os h1 h2
  | callFull x h => exact .callFull x h
  | retEmpty h => exact .retEmpty h

/-- With other flags an instruction that faults does the same and leaves them. -/
theorem exec_withFlags_of_raises {s t : State} {i : Instr} {k : FaultKind} (f : Flags) (hk : Raises s i k)
    (h : exec i s = .next t) : exec i { s with flags := f } = .next { t with flags := f } := by
  have hk' : Raises { s with flags := f } i k := hk.of_same_stacks rfl rfl rfl
  rw [exec_of_raises hk] at h
  cases h
  exact exec_of_raises hk'

/-- With other flags an effect that neither writes a flag nor branches on one is the same and leaves them. -/
theorem Effect.withFlags {s t : State} {i : Instr} (f : Flags) (h : Effect s i t) (halu : aluOf i = none)
    (hcmp : i ≠ .compare) (hbranch : ∀ c x, branchOf i = some (c, x) → c = .always) :
    Effect { s with flags := f } i { t with flags := f } := by
  cases h with
  | alu _ _ _ _ _ hop => cases halu.symm.trans hop
  | compare => exact absurd rfl hcmp
  | branchTaken _ c x hi =>
    obtain rfl := hbranch c x hi
    exact .branchTaken i .always x hi rfl
  | branchNotTaken _ c x hi hc =>
    obtain rfl := hbranch c x hi
    cases hc
  -- The other constructors apply as they stand; these two are not the first of their instruction.
  | rot3Reverse a b c os hos hr => exact .rot3Reverse a b c os hos hr
  | exitEmpty hos => exact .exitEmpty hos
  | _ => constructor <;> assumption

/-- A stack holds two operands or the check of R221 for two fails. -/
theorem two_entries_or_short (s : State) : (∃ b a os, s.os = b :: a :: os ∧ ¬ s.sp < 2) ∨ s.sp < 2 := by
  rcases hos : s.os with _ | ⟨b, _ | ⟨a, os⟩⟩
  · exact .inr (by simp [State.sp, hos])
  · exact .inr (by simp [State.sp, hos])
  · exact .inl ⟨b, a, os, rfl, by simp [State.sp, hos]⟩

theorem exec_alu_withFlags {s t : State} {i : Instr} {op : AluOp} (f : Flags) (hi : aluOf i = some op)
    (h : exec i s = .next t) :
    exec i { s with flags := f } =
      .next { t with flags := if s.sp < 2 then f else { f with carry := t.flags.carry } } := by
  obtain ⟨b, a, os, hos, hsp⟩ | hsp := two_entries_or_short s
  · rw [exec_of_effect (.alu i op b a os hi hos)] at h
    cases h
    rw [if_neg hsp]
    exact exec_of_effect (s := { s with flags := f }) (.alu i op b a os hi hos)
  · rw [if_pos hsp]
    exact exec_withFlags_of_raises f (.short i (needs_of_aluOf hi ▸ hsp)) h

theorem exec_compare_withFlags {s t : State} (f : Flags) (h : exec .compare s = .next t) :
    exec .compare { s with flags := f } =
      .next { t with flags := if s.sp < 2 then f else { t.flags with carry := f.carry } } := by
  obtain ⟨b, a, os, hos, hsp⟩ | hsp := two_entries_or_short s
  · rw [exec_of_effect (.compare b a os hos)] at h
    cases h
    rw [if_neg hsp]
    exact exec_of_effect (s := { s with flags := f }) (.compare b a os hos)
  · rw [if_pos hsp]
    exact exec_withFlags_of_raises f (.short .compare hsp) h

/-- A branch writes its operand to `pc` or changes nothing. -/
theorem exec_branch_jumps_or_keeps {i : Instr} {c : Cond} {x : Word} (hi : branchOf i = some (c, x)) (s : State) :
    exec i s = .next { s with pc := x } ∨ exec i s = .next s := by
  cases hc : c.holds s.flags with
  | true => exact .inl (exec_of_effect (.branchTaken i c x hi hc))
  | false => exact .inr (exec_of_effect (.branchNotTaken i c x hi hc))

/-- A step that fetches no instruction halts or takes an illegal opcode: the run state, the program store and `pc` decide
which, and neither writes a flag. -/
theorem step_withFlags_of_no_instruction {s t : State} (f : Flags) (hno : ∀ r i, fetch s = some r → decode r ≠ .ok i)
    (h : step s = .next t) : step { s with flags := f } = .next { t with flags := f } := by
  obtain ⟨hr, ⟨hf, rfl⟩ | ⟨r, e, hf, hd, rfl⟩ | ⟨r, i, hf, hd, -⟩⟩ := step_cases h
  · exact step_of_fetch_none (s := { s with flags := f }) hr hf
  · exact step_of_decode_error (s := { s with flags := f }) hr hf hd
  · exact absurd hd (hno r i hf)

/-- The branch that is not one of the eight conditional jumps is JMP, whose condition reads no flag. -/
theorem branchOf_always {i : Instr}
    (hi : ∀ x, i ≠ .jmpIfCarry x ∧ i ≠ .jmpIfNotCarry x ∧ i ≠ .jmpIfEqual x ∧ i ≠ .jmpIfNotEqual x ∧ i ≠ .jmpIfLess x ∧
      i ≠ .jmpIfLessOrEqual x ∧ i ≠ .jmpIfGreater x ∧ i ≠ .jmpIfGreaterOrEqual x)
    (c : Cond) (x : Word) (h : branchOf i = some (c, x)) : c = .always := by
  cases i <;> cases h
  case jmp => rfl
  all_goals simp at hi

theorem aluOf_eq_none {i : Instr} (hadd : i ≠ .add) (hsub : i ≠ .sub) (hmul : i ≠ .mul) : aluOf i = none := by
  cases hop : aluOf i with
  | none => rfl
  | some op =>
    obtain h | h | h := aluOf_eq_some hop
    · exact absurd h hadd
    · exact absurd h hsub
    · exact absurd h hmul

/-- Settles O46: an instruction's fault does not depend on the flags, and its effect depends on them in a branch only. -/
theorem flagsAreReadOnlyByConditionalJumps : Obligations.FlagsAreReadOnlyByConditionalJumps := by
  refine ⟨fun i s t f hjump hadd hsub hmul hcmp h => ?_, fun i s t f hi h => ?_,
    fun s t f h => exec_compare_withFlags f h, fun s t f hno h => step_withFlags_of_no_instruction f hno h,
    fun i s x f hi => ?_⟩
  · obtain ⟨k, hk, -⟩ | heff := exec_faultOrEffect h
    · exact exec_withFlags_of_raises f hk h
    · exact exec_of_effect (heff.withFlags f (aluOf_eq_none hadd hsub hmul) hcmp (branchOf_always hjump))
  · obtain rfl | rfl | rfl := hi <;> exact exec_alu_withFlags f rfl h
  · obtain rfl | rfl | rfl | rfl | rfl | rfl | rfl | rfl := hi <;> exact exec_branch_jumps_or_keeps rfl _

/-! ### The memory -/

/-- An instruction that is none of the four of R36. -/
def NoMemoryInstruction (i : Instr) : Prop :=
  (∀ a, i ≠ .memSetAbs a ∧ i ≠ .memGetAbs a) ∧ i ≠ .memSetIndirect ∧ i ≠ .memGetIndirect

theorem Effect.mem_eq {s t : State} {i : Instr} (h : Effect s i t) (hi : NoMemoryInstruction i) : t.mem = s.mem := by
  obtain ⟨habs, hset, -⟩ := hi
  cases h with
  | memSetAbs x => exact absurd rfl (habs x).1
  | memSetIndirect => exact absurd rfl hset
  | _ => rfl

/-- With another memory the effect of an instruction that is none of the four is the same and leaves that memory:
the conditions of its constructor name no cell. -/
theorem Effect.withMem {s t : State} {i : Instr} (m : Memory) (h : Effect s i t) (hi : NoMemoryInstruction i) :
    Effect { s with mem := m } i { t with mem := m } := by
  obtain ⟨habs, hset, hget⟩ := hi
  cases h with
  | memSetAbs x => exact absurd rfl (habs x).1
  | memGetAbs x => exact absurd rfl (habs x).2
  | memSetIndirect => exact absurd rfl hset
  | memGetIndirect => exact absurd rfl hget
  -- The other constructors apply as they stand; these three are not the first of their instruction.
  | branchNotTaken _ c x hb hc => exact .branchNotTaken i c x hb hc
  | rot3Reverse a b c os hos hr => exact .rot3Reverse a b c os hos hr
  | exitEmpty hos => exact .exitEmpty hos
  | _ => constructor <;> assumption

theorem exec_mem_unreached {s t : State} {i : Instr} (m : Memory) (hi : NoMemoryInstruction i)
    (h : exec i s = .next t) : t.mem = s.mem ∧ exec i { s with mem := m } = .next { t with mem := m } := by
  obtain ⟨k, hk, rfl⟩ | heff := exec_faultOrEffect h
  · have hk' : Raises { s with mem := m } i k := hk.of_same_stacks rfl rfl rfl
    exact ⟨rfl, exec_of_raises hk'⟩
  · exact ⟨heff.mem_eq hi, exec_of_effect (heff.withMem m hi)⟩

theorem step_mem_unreached {s t : State} (m : Memory)
    (hno : ∀ r i, fetch s = some r → decode r = .ok i → NoMemoryInstruction i) (h : step s = .next t) :
    t.mem = s.mem ∧ step { s with mem := m } = .next { t with mem := m } := by
  obtain ⟨hr, ⟨hf, rfl⟩ | ⟨r, e, hf, hd, rfl⟩ | ⟨r, i, hf, hd, hx⟩⟩ := step_cases h
  · exact ⟨rfl, step_of_fetch_none (s := { s with mem := m }) hr hf⟩
  · exact ⟨rfl, step_of_decode_error (s := { s with mem := m }) hr hf hd⟩
  · rw [step_of_decode_ok (s := { s with mem := m }) hr hf hd]
    exact exec_mem_unreached m (hno r i hf hd) hx

/-- The preload puts its `k`-th word in cell `i + k` and leaves the cells past its end at 0. -/
theorem Memory.read_ofWordsFrom (i k : Nat) (ws : List Word) :
    (Memory.ofWordsFrom i ws).read (i + k) = ws.getD k 0 := by
  induction ws generalizing i k with
  | nil => rfl
  | cons w ws ih =>
    cases k with
    | zero =>
      by_cases hw : w = 0#32
      · rw [Memory.ofWordsFrom, if_pos hw, hw]
        exact Memory.read_of_wfFrom (Memory.wfFrom_ofWordsFrom (i + 1) ws) (by omega)
      · simp [Memory.ofWordsFrom, hw, Memory.read]
    | succ k =>
      have ih' : (Memory.ofWordsFrom (i + 1) ws).read (i + (k + 1)) = ws.getD k 0 := by
        rw [← ih (i + 1) k]
        congr 1
        omega
      by_cases hw : w = 0#32
      · simpa [Memory.ofWordsFrom, hw] using ih'
      · simpa [Memory.ofWordsFrom, hw, Memory.read] using ih'

theorem bootState_readCell (c : Config) (p : Loaded) (a : Nat) : (bootState c p).readCell a = p.image.getD a 0 := by
  have h := Memory.read_ofWordsFrom 0 a p.image
  rwa [Nat.zero_add] at h

/-- Settles O47: faults do not depend on the memory, and of the effects only the four instructions' reach it. -/
theorem onlyMemoryInstructionsReachTheMemory : Obligations.OnlyMemoryInstructionsReachTheMemory := by
  refine ⟨fun s t m hno h => step_mem_unreached m hno h, fun s m => rfl, fun c p a w hw => ?_⟩
  rw [bootState_readCell, List.getD_eq_getElem?_getD, hw, Option.getD_some]

/-! ### Stack capacity -/

/-- R44: both stacks are within capacity. -/
def State.StacksWithin (s : State) : Prop := s.sp ≤ s.cfg.stackCap ∧ s.csp ≤ s.cfg.stackCap

/-- An effect that pushes has checked the room; one that replaces its operands leaves no more entries than it took. -/
theorem Effect.sp_le {s t : State} {i : Instr} (h : Effect s i t) (hs : s.sp ≤ s.cfg.stackCap) :
    t.sp ≤ s.cfg.stackCap := by
  cases h with
  | push _ hroom | dup _ _ _ hroom | memGetAbs _ _ hroom => exact hroom
  | divmod _ _ _ hos | swap _ _ _ hos | rot3Same _ _ _ _ hos | rot3Reverse _ _ _ _ hos | memGetIndirect _ _ _ hos =>
    rw [State.sp, hos] at hs
    exact hs
  | alu _ _ _ _ _ _ hos | drop _ _ hos | printNum _ _ hos | printChar _ _ hos | memSetAbs _ _ _ _ hos
  | exitTop _ _ hos =>
    rw [State.sp, hos] at hs
    exact le_trans (Nat.le_add_right _ 1) hs
  | compare _ _ _ hos | memSetIndirect _ _ _ _ hos =>
    rw [State.sp, hos] at hs
    exact le_trans (Nat.le_add_right _ 2) hs
  | dump | branchTaken | branchNotTaken | call | ret | exitEmpty => exact hs

/-- CALL has checked the room of the call stack, RETURN shortens it, and no other effect changes it. -/
theorem Effect.csp_le {s t : State} {i : Instr} (h : Effect s i t) (hs : s.csp ≤ s.cfg.stackCap) :
    t.csp ≤ s.cfg.stackCap := by
  cases h with
  | call _ hroom => exact hroom
  | ret v cs hcs =>
    rw [State.csp, hcs] at hs
    exact le_trans (Nat.le_add_right _ 1) hs
  | _ => exact hs

theorem step_cfg_eq {s t : State} (h : step s = .next t) : t.cfg = s.cfg := by
  obtain rfl | ⟨k, rfl⟩ | ⟨r, i, -, -, heff⟩ := step_halt_fault_or_effect h
  · rfl
  · rfl
  · exact heff.cfg_eq

theorem step_keeps_stacksWithin {s t : State} (h : step s = .next t) (hs : s.StacksWithin) : t.StacksWithin := by
  obtain rfl | ⟨k, rfl⟩ | ⟨r, i, -, -, heff⟩ := step_halt_fault_or_effect h
  · exact hs
  · exact hs
  · rw [State.StacksWithin, heff.cfg_eq]
    exact ⟨heff.sp_le hs.1, heff.csp_le hs.2⟩

/-- What every step keeps holds in every state reached from one that has it. -/
theorem Reaches.keeps {P : State → Prop} (hstep : ∀ s t, step s = .next t → P s → P t) {s t : State}
    (h : Reaches s t) (hs : P s) : P t := by
  induction h with
  | refl => exact hs
  | tail _ hlast ih => exact hstep _ _ hlast ih

theorem bootState_stacksWithin (c : Config) (p : Loaded) : (bootState c p).StacksWithin :=
  ⟨Nat.zero_le _, Nat.zero_le _⟩

/-- Settles O55: capacity holds at the boot, whose parameters no step changes, and every step keeps it. -/
theorem reachableStacksStayWithinCapacity : Obligations.ReachableStacksStayWithinCapacity := by
  intro c p s _ _ h
  have hcfg : s.cfg = c := h.keeps (P := fun u => u.cfg = c) (fun _ _ hstep hc => (step_cfg_eq hstep).trans hc) rfl
  have hs : s.StacksWithin := h.keeps (fun _ _ => step_keeps_stacksWithin) (bootState_stacksWithin c p)
  rw [State.StacksWithin, hcfg] at hs
  exact ⟨Nat.zero_le _, hs.1, Nat.zero_le _, hs.2⟩

end Sys2Proof.Machine

/-! # The instruction cycle (spec/40_cycle.md R100 to R105) -/

namespace Sys2Proof.Machine

/-- The halt check of R101: the fetch finds no record exactly where `K <= pc`, both read as unsigned numbers. -/
theorem fetch_eq_none_iff {s : State} : fetch s = none ↔ s.progLen ≤ s.pc.toNat :=
  List.getElem?_eq_none_iff

/-- Settles O7: past the end the fetch finds no record, and the step is `haltNormally`. -/
theorem stepAtOrPastTheEndHaltsNormally : Obligations.StepAtOrPastTheEndHaltsNormally := by
  intro s hrun hend
  exact step_of_fetch_none hrun (fetch_eq_none_iff.mpr hend)

end Sys2Proof.Machine

/-! # The stack instructions (spec/41_stack.md R120, R122, R124)

An instruction's fault is a constructor of `Raises`, its completed form one of `Effect`. The operand of SWAP and DROP is
ignored, so their records decode whatever it is. -/

namespace Sys2Proof.Machine

/-- Settles O13: room decides between the effect of PUSH and its only fault. -/
theorem pushPushesItsOperandOrOverflows : Obligations.PushPushesItsOperandOrOverflows := by
  refine ⟨fun _ => rfl, fun imm s hroom => ?_, fun imm s hfull => ?_⟩
  · exact exec_of_effect (.push imm hroom)
  · exact exec_of_raises (.pushFull imm hfull)

/-- Settles O15: SWAP asks for two entries and never for room, so a full stack is swapped like any other. -/
theorem swapExchangesTheTopTwo : Obligations.SwapExchangesTheTopTwo := by
  refine ⟨fun _ => rfl, fun s b a rest hos => ?_, fun s hshort => ?_⟩
  · exact exec_of_effect (.swap b a rest hos)
  · exact exec_of_raises (.short .swap hshort)

/-- Settles O17: DROP asks for one entry, so only the empty stack underflows. -/
theorem dropDiscardsTheTop : Obligations.DropDiscardsTheTop := by
  refine ⟨fun _ => rfl, fun s v rest hos => ?_, fun s hempty => ?_⟩
  · exact exec_of_effect (.drop v rest hos)
  · have hshort : s.sp < needs .drop := hempty ▸ Nat.one_pos
    exact exec_of_raises (.short .drop hshort)

end Sys2Proof.Machine

/-! # The carry-writing arithmetic instructions (spec/42_arithmetic.md R141 to R143)

ADD, SUB and MUL are the rows of `aluOf`. What they do with two operands, and with fewer, is said once for every row. -/

namespace Sys2Proof.Machine

/-- The shape R141 to R143 share: the exact result of the row's operation, with `a` pushed before `b`, is wrapped and
pushed, and `C` is its `CarryOut`. -/
theorem exec_alu_of_two_operands {i : Instr} {op : AluOp} (hi : aluOf i = some op) {s : State} {b a : Word}
    {rest : List Word} (hos : s.os = b :: a :: rest) :
    exec i s = .next { s with
      os := wrap32 (op.exact a.toInt b.toInt) :: rest
      flags := { s.flags with carry := carryOut s.cfg.carryReading op (op.exact a.toInt b.toInt) } } :=
  exec_of_effect (.alu i op b a rest hi hos)

/-- The only fault of R141 to R143 is the check for two entries. -/
theorem exec_alu_of_short {i : Instr} {op : AluOp} (hi : aluOf i = some op) {s : State} (hshort : s.sp < 2) :
    exec i s = .next (takeFault .stackUnderflow s) := by
  have hneeds : s.sp < needs i := needs_of_aluOf hi ▸ hshort
  exact exec_of_raises (.short i hneeds)

/-- Settles O18: ADD is the row of `aluOf` whose exact result is `a + b`. -/
theorem addPushesWrappedSumAndWritesCarry : Obligations.AddPushesWrappedSumAndWritesCarry := by
  refine ⟨fun _ => rfl, fun s b a rest hos => ?_, fun s hshort => ?_⟩
  · exact exec_alu_of_two_operands (op := .add) rfl hos
  · exact exec_alu_of_short (op := .add) rfl hshort

/-- Settles O19: SUB is the row of `aluOf` whose exact result is `a - b`, the minuend `a` below the top. -/
theorem subPushesWrappedDifferenceAndWritesCarry : Obligations.SubPushesWrappedDifferenceAndWritesCarry := by
  refine ⟨fun _ => rfl, fun s b a rest hos => ?_, fun s hshort => ?_⟩
  · exact exec_alu_of_two_operands (op := .sub) rfl hos
  · exact exec_alu_of_short (op := .sub) rfl hshort

/-- Settles O20: MUL is the row of `aluOf` whose exact result is `a * b`. -/
theorem mulPushesWrappedProductAndWritesCarry : Obligations.MulPushesWrappedProductAndWritesCarry := by
  refine ⟨fun _ => rfl, fun s b a rest hos => ?_, fun s hshort => ?_⟩
  · exact exec_alu_of_two_operands (op := .mul) rfl hos
  · exact exec_alu_of_short (op := .mul) rfl hshort

end Sys2Proof.Machine

/-! # Character output (spec/43_output.md R162) -/

namespace Sys2Proof.Machine

/-- `v[7:0]` is the value modulo 256. -/
theorem lowByte_eq_ofNat_mod (v : Word) : lowByte v = BitVec.ofNat 8 (v.toNat % 256) := by
  apply BitVec.eq_of_toNat_eq
  simp [lowByte]

/-- Settles O26: PRINT_CHAR emits the low byte of its one entry, and the check for that entry is its only fault. -/
theorem printCharEmitsTheLowByte : Obligations.PrintCharEmitsTheLowByte := by
  refine ⟨fun _ => rfl, fun s v rest hos => ?_, fun s hempty => ?_, fun _ => rfl⟩
  · rw [← lowByte_eq_ofNat_mod v]
    exact exec_of_effect (.printChar v rest hos)
  · have hshort : s.sp < needs .printChar := hempty ▸ Nat.one_pos
    exact exec_of_raises (.short .printChar hshort)

end Sys2Proof.Machine

/-! # The branch instructions (spec/45_compare_branch.md R191 to R200)

JMP and the conditional jumps are the rows of `branchOf`. What a branch does is said once for every row; a jump's
statement is then that of its row's condition. -/

namespace Sys2Proof.Machine

/-- R191 for every row: `pc` becomes the operand where the row's condition holds of the flags, and nothing else changes. -/
theorem exec_branch_eq_ite {i : Instr} {c : Cond} {x : Word} (hi : branchOf i = some (c, x)) (s : State) :
    exec i s = .next (if c.holds s.flags = true then { s with pc := x } else s) := by
  cases hc : c.holds s.flags with
  | true => exact exec_of_effect (.branchTaken i c x hi hc)
  | false => exact exec_of_effect (.branchNotTaken i c x hi hc)

theorem Cond.holds_notCarry_iff (f : Flags) : Cond.notCarry.holds f = true ↔ ¬ f.carry = true := by
  simp only [Cond.holds, Bool.not_eq_true', Bool.not_eq_true]

theorem Cond.holds_notEqual_iff (f : Flags) : Cond.notEqual.holds f = true ↔ ¬ f.equal = true := by
  simp only [Cond.holds, Bool.not_eq_true', Bool.not_eq_true]

theorem Cond.holds_greaterOrEqual_iff (f : Flags) :
    Cond.greaterOrEqual.holds f = true ↔ f.greater = true ∨ f.equal = true := by
  simp only [Cond.holds, Bool.or_eq_true]

/-- Settles O38: JMP is the row of `branchOf` whose condition always holds. -/
theorem jmpSetsPcToItsOperand : Obligations.JmpSetsPcToItsOperand := by
  refine ⟨fun _ => rfl, fun x s => ?_⟩
  exact exec_branch_eq_ite (c := .always) rfl s

/-- Settles O39: each jump is a row of `branchOf`; a negated condition exchanges the two outcomes. -/
theorem conditionalJumpsFollowTheirFlags : Obligations.ConditionalJumpsFollowTheirFlags := by
  intro x s
  refine ⟨⟨rfl, ?_⟩, ⟨rfl, ?_⟩, ⟨rfl, ?_⟩, ⟨rfl, ?_⟩, ⟨rfl, ?_⟩, ⟨rfl, ?_⟩, ⟨rfl, ?_⟩⟩
  · exact exec_branch_eq_ite (c := .carry) rfl s
  · simp only [exec_branch_eq_ite (i := .jmpIfNotCarry x) rfl s, Cond.holds_notCarry_iff, ite_not]
  · exact exec_branch_eq_ite (c := .equal) rfl s
  · simp only [exec_branch_eq_ite (i := .jmpIfNotEqual x) rfl s, Cond.holds_notEqual_iff, ite_not]
  · exact exec_branch_eq_ite (c := .less) rfl s
  · exact exec_branch_eq_ite (c := .greater) rfl s
  · simp only [exec_branch_eq_ite (i := .jmpIfGreaterOrEqual x) rfl s, Cond.holds_greaterOrEqual_iff]

end Sys2Proof.Machine

/-! # Calls and program termination (spec/46_call_return_exit.md R210, R212)

CALL asks for room on the call stack and nothing of the operand stack. EXIT has an effect for each shape of the operand
stack and no constructor of `Raises`. -/

namespace Sys2Proof.Machine

/-- Settles O41: room on the call stack decides between the effect of CALL and its only fault. -/
theorem callPushesThePcAndJumps : Obligations.CallPushesThePcAndJumps := by
  refine ⟨fun _ => rfl, fun x s hroom => ?_, fun x s hfull => ?_⟩
  · exact exec_of_effect (.call x hroom)
  · exact exec_of_raises (.callFull x hfull)

/-- Settles O43: EXIT completes on every operand stack, with the top as the code or 0 where there is none. -/
theorem exitTerminatesWithTheTopOrZero : Obligations.ExitTerminatesWithTheTopOrZero := by
  refine ⟨fun _ => rfl, fun s v rest hos => ?_, fun s hempty => ?_⟩
  · exact exec_of_effect (.exitTop v rest hos)
  · have hos : s.os = [] := List.length_eq_zero_iff.mp hempty
    exact exec_of_effect (.exitEmpty hos)

end Sys2Proof.Machine

/-! # The decoder, the encoder and their bytes (spec/30_encoding.md R70 to R77) -/

namespace Sys2Proof

/-- A number that is a `u32` stands unchanged in a 32-bit field. -/
theorem toNat_ofNat_of_le {n : Nat} (h : n ≤ 2 ^ 32 - 1) : (BitVec.ofNat 32 n).toNat = n := by
  rw [BitVec.toNat_ofNat, Nat.mod_eq_of_lt (by omega)]

/-! ### Decoding a record -/

theorem decode_encode (i : Instr) : decode (encode i) = .ok i := by cases i <;> rfl

theorem Instr.wf_eq_true (i : Instr) : i.wf = true := by cases i <;> rfl

/-- What the record of a decoded instruction holds: its opcode, and in format I its operand. -/
theorem fields_of_decode {r : Record} {i : Instr} (h : decode r = .ok i) :
    r.opcode.toNat = i.opcode ∧ (i.format = .I → i.operandField = r.operand) := by
  unfold decode at h
  split at h <;> cases h
  all_goals
    next hop => exact ⟨hop, fun hformat => by cases hformat <;> rfl⟩

/-- The map of R74 has the values 0 to 28, and every other value is the error that names it (R76). -/
theorem decode_in_map_or_error (r : Record) :
    (r.opcode.toNat ≤ 28 ∧ ∃ i, decode r = .ok i) ∨
      (28 < r.opcode.toNat ∧ decode r = .error (.illegalOpcode r.opcode)) := by
  unfold decode
  split
  case h_30 =>
    refine .inr ⟨?_, rfl⟩
    simp only [imp_false] at *
    omega
  all_goals exact .inl ⟨by omega, _, rfl⟩

/-- Read as an `i32` or as a `u32`, the same opcodes lie in the map. -/
theorem opcode_in_map_iff (w : Word) : 0 ≤ w.toInt ∧ w.toInt ≤ 28 ↔ w.toNat ≤ 28 := by
  have hlt := w.isLt
  rw [BitVec.toInt_eq_toNat_cond]
  split <;> omega

theorem decode_eq_error_of_illegal {r : Record} (h : ¬(0 ≤ r.opcode.toInt ∧ r.opcode.toInt ≤ 28)) :
    decode r = .error (.illegalOpcode r.opcode) := by
  obtain ⟨hle, -⟩ | ⟨-, herr⟩ := decode_in_map_or_error r
  · exact absurd ((opcode_in_map_iff _).mpr hle) h
  · exact herr

/-! ### Decoding bytes -/

theorem decodeBytes_recordBytes_of_ok {r : Record} {i : Instr} (h : decode r = .ok i) (rest : List Byte) :
    decodeBytes (recordBytes r ++ rest) = .ok (i, rest) := by
  simp only [decodeBytes, recordOfBytes_recordBytes, h]

theorem decodeBytes_recordBytes_of_error {r : Record} {e : DecodeError} (h : decode r = .error e) (rest : List Byte) :
    decodeBytes (recordBytes r ++ rest) = .error e := by
  simp only [decodeBytes, recordOfBytes_recordBytes, h]

/-- A table word is decoded through its eight bytes, which give back its record. -/
theorem decode_of_decodeTableWord {nbits w : Nat} {i : Instr} (h : decodeTableWord nbits w = some i) :
    decode (tableRecord nbits w) = .ok i := by
  unfold decodeTableWord at h
  rw [← List.append_nil (recordBytes _)] at h
  cases hd : decode (tableRecord nbits w) with
  | ok j =>
    rw [decodeBytes_recordBytes_of_ok hd] at h
    cases h
    rfl
  | error e =>
    rw [decodeBytes_recordBytes_of_error hd] at h
    cases h

/-! ### The statements -/

/-- Settles O3: the bytes of a record give the record back, and the record of an instruction decodes to it. -/
theorem encodedBytesDecodeToTheInstruction : Obligations.EncodedBytesDecodeToTheInstruction := by
  intro i rest
  exact ⟨i.wf_eq_true, length_recordBytes _, decodeBytes_recordBytes_of_ok (decode_encode i) rest⟩

/-- Settles O4: a decoded record has the instruction's opcode and, in format I, its operand; in format N the encoder
writes operand 0. -/
theorem decodedRecordIsTheEncodersUpToIgnoredOperand : Obligations.DecodedRecordIsTheEncodersUpToIgnoredOperand := by
  intro r i h
  obtain ⟨hop, hoperand⟩ := fields_of_decode h
  have hopcode : BitVec.ofNat 32 i.opcode = r.opcode := by rw [← hop, BitVec.ofNat_toNat, BitVec.setWidth_eq]
  refine ⟨fun hI => ?_, fun hN => ?_⟩
  · rw [encode, hopcode, hoperand hI]
  · have hzero : i.operandField = 0 := by cases i <;> cases hN <;> rfl
    rw [encode, hopcode, hzero]

/-- Settles O5: `decode` succeeds on the values 0 to 28 of R74 alone, which are those in `[0, 28]` as an `i32`. -/
theorem decodeFailsExactlyOnOpcodesOutsideTheMap : Obligations.DecodeFailsExactlyOnOpcodesOutsideTheMap := by
  refine fun r => ⟨⟨fun ⟨i, hi⟩ => ?_, fun hmap => ?_⟩, decode_eq_error_of_illegal⟩
  · by_contra hout
    cases hi.symm.trans (decode_eq_error_of_illegal hout)
  · obtain ⟨-, hok⟩ | ⟨hgt, -⟩ := decode_in_map_or_error r
    · exact hok
    · exact absurd ((opcode_in_map_iff _).mp hmap) (by omega)

/-- Settles O1: each row of the map, whatever the operand field holds. -/
theorem opcodeMapSelectsEachInstruction : Obligations.OpcodeMapSelectsEachInstruction := by
  intro x
  and_intros <;> rfl

/-- Settles O2: the decoder evaluated on the seven words. -/
theorem sampleRecordWordsDecode : Obligations.SampleRecordWordsDecode := by
  unfold Obligations.SampleRecordWordsDecode
  decide

end Sys2Proof

/-! # Halting, faulting and decoding steps (spec/40_cycle.md R100 to R107, 60_exceptions.md R223, R235) -/

namespace Sys2Proof.Machine

/-- R235: no step leads on from a final run state. -/
theorem step_of_not_running {s : State} (h : s.runState ≠ .running) : step s = .fault (.finalState s.runState) := by
  unfold step
  split
  · exact absurd ‹_› h
  · rfl

/-- Of the completed instructions EXIT alone ends the run, and not on a fault. -/
theorem Effect.faultFree {s t : State} {i : Instr} (h : Effect s i t) (hs : s.faultFree = true) :
    t.faultFree = true := by
  cases h with
  | exitTop | exitEmpty => rfl
  | _ => exact hs

theorem faultFree_of_running {s : State} (h : s.runState = .running) : s.faultFree = true := by
  rw [State.faultFree, h]

theorem not_faultFree_of_haltedOnFault {s : State} {k : FaultKind} (h : s.runState = .haltedOnFault k) :
    s.faultFree = false := by
  rw [State.faultFree, h]

/-- Settles O6: the record at `pc` is the one the step fetches. -/
theorem stepRunsTheDecodedInstruction : Obligations.StepRunsTheDecodedInstruction := by
  intro s r i hrun hfetch hdecode _
  exact step_of_decode_ok hrun hfetch hdecode

/-- Settles O8: the record is fetched and does not decode, so the step takes the fault in the advanced state. -/
theorem fetchedIllegalOpcodeFaults : Obligations.FetchedIllegalOpcodeFaults := by
  intro s r hrun hfetch hillegal
  exact step_of_decode_error hrun hfetch (decode_eq_error_of_illegal hillegal)

/-- Settles O9: a running core halts, faults or executes, and each answers a next state. -/
theorem runningCoreAlwaysStepsAndFinalStatesNever : Obligations.RunningCoreAlwaysStepsAndFinalStatesNever := by
  refine fun s => ⟨fun hrun => ?_, step_of_not_running⟩
  cases hfetch : fetch s with
  | none => exact ⟨_, step_of_fetch_none hrun hfetch⟩
  | some r =>
    cases hdecode : decode r with
    | error e => exact ⟨_, step_of_decode_error hrun hfetch hdecode⟩
    | ok i =>
      rw [step_of_decode_ok hrun hfetch hdecode]
      exact exec_answers_next i s.advance

/-- Settles O10: neither the halt check nor a completed instruction ends on a fault, so the step took one. -/
theorem faultingStepWritesOnlyPcRunStateAndReport : Obligations.FaultingStepWritesOnlyPcRunStateAndReport := by
  intro s t kind h hkind
  have hfinal : t.runState ≠ .running := by rw [hkind]; nofun
  refine ⟨?_, fun u hu => nomatch (step_of_not_running hfinal).symm.trans hu⟩
  obtain rfl | ⟨k, rfl⟩ | ⟨r, i, -, -, heff⟩ := step_halt_fault_or_effect h
  · cases hkind
  · cases hkind
    rfl
  · have hrun := running_of_step h
    have hfree := heff.faultFree (faultFree_of_running (s := s.advance) hrun)
    cases hfree.symm.trans (not_faultFree_of_haltedOnFault hkind)

/-- The record placed at an index is the one read there: what stands before it has that many records. -/
theorem progWithRecord_getElem? (prog : List Record) (i : Nat) (r : Record) :
    (progWithRecord prog i r)[i]? = some r := by
  have hlen : (prog.take i ++ List.replicate (i - prog.length) (⟨0, 0⟩ : Record)).length = i := by
    rw [List.length_append, List.length_take, List.length_replicate]
    omega
  rw [progWithRecord, List.getElem?_append_right hlen.le, hlen, Nat.sub_self]
  rfl

/-- Settles O11: the next fetch of the running core reads the record placed at `pc`. -/
theorem fetchWordIsTheNextInstructionRun : Obligations.FetchWordIsTheNextInstructionRun := by
  intro s nbits w i h
  have hfetch : fetch (s.withFetchWord nbits w) = some (tableRecord nbits w) := progWithRecord_getElem? _ _ _
  exact ⟨step_of_decode_ok rfl hfetch (decode_of_decodeTableWord h), rfl⟩

end Sys2Proof.Machine

/-! # Status codes, exit codes and printed numbers (spec/60_exceptions.md R220, R229, 43_output.md R160) -/

namespace Sys2Proof.Machine

/-- R229: whatever value is drawn, a rejected load exits with a code other than 0. -/
theorem loadFailureExitCode_ne_zero : loadFailureExitCode ≠ 0 := by
  unfold loadFailureExitCode
  split
  · decide
  · assumption

/-- Settles O12: the two tables, row by row. -/
theorem statusCodesAndExitCodes : Obligations.StatusCodesAndExitCodes :=
  ⟨rfl, rfl, rfl, rfl, rfl, rfl, rfl, fun _ => rfl, fun _ => rfl, loadFailureExitCode_ne_zero⟩

/-! ### Decimal digits -/

/-- `ds` are the decimal digits of `n`, most significant first and without a leading zero. -/
structure ShortestDecimal (ds : List Nat) (n : Nat) : Prop where
  nonempty : ds ≠ []
  digit_lt : ∀ d ∈ ds, d < 10
  no_leading_zero : ds.head? = some 0 → ds = [0]
  value : ds.foldl (fun n d => 10 * n + d) 0 = n

theorem ShortestDecimal.of_digit {n : Nat} (h : n < 10) : ShortestDecimal [n] n where
  nonempty := by simp
  digit_lt := by simpa using h
  no_leading_zero := by simp
  value := by simp

/-- The digits of `n / 10` and then `n % 10`: they lead with no zero, since `n / 10` is not 0. -/
theorem ShortestDecimal.append_digit {ds : List Nat} {n : Nat} (h : ShortestDecimal ds (n / 10)) (hn : 10 ≤ n) :
    ShortestDecimal (ds ++ [n % 10]) n where
  nonempty := by simp
  digit_lt := by
    intro d hd
    obtain hd | rfl := by simpa using hd
    · exact h.digit_lt d hd
    · omega
  no_leading_zero hhead := by
    rw [List.head?_append_of_ne_nil _ h.nonempty] at hhead
    have hvalue := h.value
    rw [h.no_leading_zero hhead] at hvalue
    simp only [List.foldl_cons, List.foldl_nil] at hvalue
    omega
  value := by
    rw [List.foldl_append, h.value]
    exact Nat.div_add_mod n 10

/-- With enough fuel `digitsAux` writes the digits of its number before what it was given. -/
theorem digitsAux_eq_shortestDecimal (fuel n : Nat) (acc : List Byte) (h : n < 10 ^ (fuel + 1)) :
    ∃ ds, ShortestDecimal ds n ∧ digitsAux (fuel + 1) n acc = ds.map digitByte ++ acc := by
  induction fuel generalizing n acc with
  | zero => exact ⟨[n], .of_digit h, if_pos h⟩
  | succ fuel ih =>
    by_cases hn : n < 10
    · exact ⟨[n], .of_digit hn, if_pos hn⟩
    · obtain ⟨ds, hds, heq⟩ := ih (n / 10) (digitByte (n % 10) :: acc) (by rw [pow_succ] at h; omega)
      refine ⟨ds ++ [n % 10], hds.append_digit (not_lt.mp hn), ?_⟩
      rw [digitsAux, if_neg hn, heq, List.map_append, List.append_assoc]
      rfl

/-- Ten digits suffice for the size of an `i32`. -/
theorem natAbs_toInt_lt (v : Word) : v.toInt.natAbs < 10 ^ 10 := by
  have hlo := BitVec.le_toInt v
  have hhi := BitVec.toInt_lt (x := v)
  omega

/-- Settles O28: the digits of `|v|` are written after the sign. -/
theorem numRendersAsShortestDecimalAndNewline : Obligations.NumRendersAsShortestDecimalAndNewline := by
  intro v
  obtain ⟨ds, hds, heq⟩ := digitsAux_eq_shortestDecimal 9 v.toInt.natAbs [] (natAbs_toInt_lt v)
  refine ⟨ds, hds.nonempty, hds.digit_lt, hds.no_leading_zero, hds.value, ?_⟩
  have hdigits : decimalNat v.toInt.natAbs = ds.map digitByte := heq.trans (List.append_nil _)
  rw [renderEvent, decimal, hdigits]
  split <;> rfl

end Sys2Proof.Machine

/-! # DUP, ROT3, PRINT_NUM and DUMP (spec/41_stack.md R121, R123, 43_output.md R161, R163) -/

namespace Sys2Proof.Machine

/-- An instruction that needs one entry underflows on the empty stack. -/
theorem exec_of_empty {i : Instr} (hi : needs i = 1) {s : State} (h : s.sp = 0) :
    exec i s = .next (takeFault .stackUnderflow s) := by
  have hshort : s.sp < needs i := by omega
  exact exec_of_raises (.short i hshort)

/-- A stack that is not empty has a top. -/
theorem os_eq_cons_of_sp_pos {s : State} (h : 0 < s.sp) : ∃ v os, s.os = v :: os :=
  List.exists_cons_of_length_pos h

/-- Settles O14: DUP asks for one entry, then for room. -/
theorem dupDuplicatesTheTop : Obligations.DupDuplicatesTheTop := by
  refine ⟨fun _ => rfl, fun s v rest hos hroom => ?_, fun s hempty => exec_of_empty rfl hempty,
    fun s hpos hfull => ?_⟩
  · rw [exec_of_effect (.dup v rest hos hroom), State.push, hos]
    rfl
  · obtain ⟨v, os, hos⟩ := os_eq_cons_of_sp_pos hpos
    exact exec_of_raises (.dupFull v os hos hfull)

/-- Settles O16: the reading decides what ROT3 does with its three entries. -/
theorem rot3UnderBothReadings : Obligations.Rot3UnderBothReadings := by
  refine ⟨fun _ => rfl, fun s a b c rest hos hread => ?_, fun s a b c rest hos hread => ?_, fun s hshort => ?_⟩
  · rw [exec_of_effect (.rot3Same a b c rest hos hread), ← hos]
    rfl
  · exact exec_of_effect (.rot3Reverse a b c rest hos hread)
  · exact exec_of_raises (.short .rot3 hshort)

/-- Settles O25: PRINT_NUM emits its one entry, and the check for it is its only fault. -/
theorem printNumEmitsTheTop : Obligations.PrintNumEmitsTheTop := by
  refine ⟨fun _ => rfl, fun s v rest hos => ?_, fun s hempty => exec_of_empty rfl hempty⟩
  exact exec_of_effect (.printNum v rest hos)

/-- Settles O27: DUMP emits the stack as it stands; the spec counts its entries from the bottom. -/
theorem dumpEmitsTheWholeStackTopFirst : Obligations.DumpEmitsTheWholeStackTopFirst := by
  refine ⟨fun _ => rfl, fun s => ⟨s.os, exec_of_effect .dump, rfl, fun k hk => ?_⟩, _, _, rfl⟩
  rw [← List.reverse_reverse s.os, List.getElem?_reverse (List.length_reverse.symm ▸ hk), List.length_reverse]
  rfl

end Sys2Proof.Machine

/-! # The carry and DIVMOD (spec/42_arithmetic.md R140, R144 to R146) -/

namespace Sys2Proof.Machine

/-! ### Conversions -/

theorem dvd_wrap32_toInt_sub (x : Int) : (2 ^ 32 : Int) ∣ (wrap32 x).toInt - x := by
  rw [wrap32, BitVec.toInt_ofInt]
  exact Int.dvd_bmod_sub_self

theorem isI32_iff {x : Int} : isI32 x = true ↔ -2 ^ 31 ≤ x ∧ x ≤ 2 ^ 31 - 1 := by
  simp only [isI32, Bool.and_eq_true, decide_eq_true_eq]

theorem carryOut_signedRange_iff {op : AluOp} {x : Int} :
    carryOut .signedRange op x = true ↔ (wrap32 x).toInt ≠ x := by
  rw [ne_eq, wrap32_toInt_eq_iff]
  simp [carryOut]

/-- Under Directional each operation has one bound. -/
theorem carryOut_directional_iff (x : Int) :
    (carryOut .directional .add x = true ↔ 2 ^ 31 ≤ x) ∧ (carryOut .directional .mul x = true ↔ 2 ^ 31 ≤ x) ∧
      (carryOut .directional .sub x = true ↔ x < -2 ^ 31) := by
  have hpast : x > 2 ^ 31 - 1 ↔ 2 ^ 31 ≤ x := by omega
  simp only [carryOut, decide_eq_true_eq, hpast, and_self]

/-- Settles O21: `wrap32` is the identity on `i32` alone, and past a bound of one side there is no `i32`. -/
theorem carryMeansTheWrappedResultDiffers : Obligations.CarryMeansTheWrappedResultDiffers := by
  refine ⟨dvd_wrap32_toInt_sub, fun _ _ => carryOut_signedRange_iff, carryOut_directional_iff, fun op x h => ?_⟩
  obtain ⟨hadd, hmul, hsub⟩ := carryOut_directional_iff x
  rw [carryOut_signedRange_iff, ne_eq, wrap32_toInt_eq_iff, isI32_iff]
  cases op with
  | add => have := hadd.mp h; omega
  | sub => have := hsub.mp h; omega
  | mul => have := hmul.mp h; omega

/-! ### DIVMOD -/

/-- Settles O22: the two entries and the divisor check decide between the effect of DIVMOD and its faults. -/
theorem divmodPushesRemainderThenQuotient : Obligations.DivmodPushesRemainderThenQuotient := by
  refine ⟨fun _ => rfl, fun s b a rest hos hzero hover => ?_, fun s b a rest hos hbad => ?_, fun s hshort => ?_⟩
  · exact exec_of_effect (.divmod b a rest hos hzero hover)
  · exact exec_of_raises (.divisor b a rest hos hbad)
  · exact exec_of_raises (.short .divmod hshort)

theorem truncRem_eq_tmod (a b : Int) : truncRem a b = a.tmod b := (Int.tmod_def a b).symm

theorem natAbs_truncRem_lt {a b : Int} (hb : b ≠ 0) : (truncRem a b).natAbs < b.natAbs := by
  rw [truncRem_eq_tmod, Int.natAbs_tmod]
  exact Nat.mod_lt _ (Int.natAbs_pos.mpr hb)

/-- R146: a remainder other than 0 has the dividend's sign. -/
theorem truncRem_sign (a b : Int) :
    truncRem a b = 0 ∨ (0 < truncRem a b ∧ 0 < a) ∨ (truncRem a b < 0 ∧ a < 0) := by
  have hsign := Int.sign_tmod a b
  rw [truncRem_eq_tmod]
  split at hsign
  · exact .inl (Int.sign_eq_zero_iff_zero.mp hsign)
  · obtain ha | rfl | ha := lt_trichotomy a 0
    · rw [Int.sign_eq_neg_one_of_neg ha] at hsign
      exact .inr (.inr ⟨Int.sign_eq_neg_one_iff_neg.mp hsign, ha⟩)
    · exact .inl (Int.zero_tmod b)
    · rw [Int.sign_eq_one_of_pos ha] at hsign
      exact .inr (.inl ⟨Int.sign_eq_one_iff_pos.mp hsign, ha⟩)

/-- The quotient of two `i32` leaves `i32` only for `-2^31` by `-1`. -/
theorem isI32_truncDiv {a b : Word} (hover : ¬(a.toInt = -2 ^ 31 ∧ b.toInt = -1)) :
    isI32 (truncDiv a.toInt b.toInt) = true := by
  have hlo := BitVec.le_toInt a
  have hhi := BitVec.toInt_lt (x := a)
  rw [isI32_iff, truncDiv]
  obtain hb | hb | hb | hb : b.toInt = 0 ∨ b.toInt = 1 ∨ b.toInt = -1 ∨ 2 ≤ b.toInt.natAbs := by omega
  · rw [hb, Int.tdiv_zero]
    omega
  · rw [hb, Int.tdiv_one]
    omega
  · rw [hb, Int.tdiv_neg, Int.tdiv_one]
    omega
  · have hq : (a.toInt.tdiv b.toInt).natAbs ≤ a.toInt.natAbs / 2 := by
      rw [Int.natAbs_tdiv]
      exact Nat.div_le_div_left hb (by decide)
    omega

/-- A remainder is smaller than an `i32`, so it is one. -/
theorem isI32_truncRem {a b : Word} (hb : b.toInt ≠ 0) : isI32 (truncRem a.toInt b.toInt) = true := by
  have hlo := BitVec.le_toInt b
  have hhi := BitVec.toInt_lt (x := b)
  have hlt := natAbs_truncRem_lt (a := a.toInt) hb
  rw [isI32_iff]
  omega

/-- Settles O23: quotient and remainder are `i32`, so the entries are the exact numbers of the division. -/
theorem divmodQuotientAndRemainderLaws : Obligations.DivmodQuotientAndRemainderLaws := by
  intro s b a rest hos hb hover
  have hq := (wrap32_toInt_eq_iff _).mpr (isI32_truncDiv hover)
  have hr := (wrap32_toInt_eq_iff _).mpr (isI32_truncRem (a := a) hb)
  refine ⟨_, _, exec_of_effect (.divmod b a rest hos hb hover), ?_, ?_, ?_⟩
  · rw [hq, hr, truncRem]
    omega
  · rw [hr]
    exact natAbs_truncRem_lt hb
  · rw [hr]
    exact truncRem_sign a.toInt b.toInt

/-! ### Laws of ADD, SUB and MUL -/

/-- Subtracting an entry from the wrapped sum gives the other entry back. -/
theorem wrap32_wrap32_add_sub (a b : Word) : wrap32 ((wrap32 (a.toInt + b.toInt)).toInt - b.toInt) = a := by
  simp only [wrap32, Int.sub_eq_add_neg, BitVec.ofInt_add, BitVec.ofInt_neg, BitVec.ofInt_toInt]
  exact add_neg_cancel_right a b

/-- Exchanging the operands of an operation that commutes changes neither the result nor the carry. -/
theorem exec_alu_exchange_operands {i : Instr} {op : AluOp} (hi : aluOf i = some op)
    (hcomm : ∀ x y, op.exact x y = op.exact y x) {s : State} {b a : Word} {rest : List Word}
    (hos : s.os = b :: a :: rest) : exec i { s with os := a :: b :: rest } = exec i s := by
  rw [exec_alu_of_two_operands hi hos, exec_alu_of_two_operands hi (s := { s with os := a :: b :: rest }) rfl,
    hcomm b.toInt a.toInt]

/-- Settles O24: the sum and the difference wrap, so their entries are those of arithmetic modulo `2^32`. -/
theorem addThenSubRestoresAndAddMulCommute : Obligations.AddThenSubRestoresAndAddMulCommute := by
  refine ⟨fun s t u b a rest hos hadd _ hu => ?_, fun s b a rest hos => ⟨?_, ?_⟩⟩
  · rw [exec_alu_of_two_operands (op := .add) rfl hos] at hadd
    cases hadd
    refine ⟨_, exec_alu_of_two_operands (op := .sub) rfl hu, ?_⟩
    exact congrArg (· :: rest) (wrap32_wrap32_add_sub a b)
  · exact exec_alu_exchange_operands (op := .add) rfl Int.add_comm hos
  · exact exec_alu_exchange_operands (op := .mul) rfl Int.mul_comm hos

end Sys2Proof.Machine

/-! # The data memory and its instructions (spec/20_memory.md R52, R57, 44_memory_access.md R170 to R175) -/

namespace Sys2Proof.Machine

/-! ### The canonical form -/

theorem Memory.wfFrom_cons {lo a : Nat} {v : Word} {m : Memory} :
    Memory.wfFrom lo ((a, v) :: m) = true ↔ lo ≤ a ∧ v ≠ 0#32 ∧ m.wfFrom (a + 1) = true := by
  simp only [Memory.wfFrom, Bool.and_eq_true, decide_eq_true_eq, and_assoc]

theorem Memory.read_cons_same (a : Nat) (v : Word) (m : Memory) : Memory.read ((a, v) :: m) a = v := if_pos rfl

theorem Memory.read_cons_other {a b : Nat} (h : b ≠ a) (v : Word) (m : Memory) :
    Memory.read ((b, v) :: m) a = m.read a := if_neg h

/-- A memory that lists cells from its first one on reads 0 below it. -/
theorem Memory.first_le_of_read_ne_zero {lo a b : Nat} {v : Word} {m : Memory}
    (hm : Memory.wfFrom lo ((a, v) :: m) = true) (h : Memory.read ((a, v) :: m) b ≠ 0#32) : a ≤ b := by
  obtain ⟨-, hv, htail⟩ := Memory.wfFrom_cons.mp hm
  by_contra hlt
  exact h (Memory.read_of_wfFrom (Memory.wfFrom_cons.mpr ⟨le_rfl, hv, htail⟩) (not_le.mp hlt))

/-- A listed cell does not read as 0, so two lists that read alike have the same first cell, and so on. -/
theorem Memory.eq_of_read_eq {lo lo' : Nat} {m m' : Memory} (hm : m.wfFrom lo = true) (hm' : m'.wfFrom lo' = true)
    (h : ∀ a, m.read a = m'.read a) : m = m' := by
  induction m generalizing lo lo' m' with
  | nil =>
    cases m' with
    | nil => rfl
    | cons c m' =>
      obtain ⟨b, w⟩ := c
      obtain ⟨-, hw, -⟩ := Memory.wfFrom_cons.mp hm'
      exact absurd ((Memory.read_cons_same b w m').symm.trans (h b).symm) hw
  | cons c m ih =>
    obtain ⟨a, v⟩ := c
    obtain ⟨-, hv, htail⟩ := Memory.wfFrom_cons.mp hm
    cases m' with
    | nil => exact absurd ((Memory.read_cons_same a v m).symm.trans (h a)) hv
    | cons c m' =>
      obtain ⟨b, w⟩ := c
      obtain ⟨-, hw, htail'⟩ := Memory.wfFrom_cons.mp hm'
      have hab : a ≤ b := Memory.first_le_of_read_ne_zero hm (by rwa [h b, Memory.read_cons_same])
      have hba : b ≤ a := Memory.first_le_of_read_ne_zero hm' (by rwa [← h a, Memory.read_cons_same])
      obtain rfl := le_antisymm hab hba
      have hvw : v = w := by simpa only [Memory.read_cons_same] using h a
      have hrest : ∀ x, Memory.read m x = Memory.read m' x := by
        intro x
        by_cases hx : x < a + 1
        · rw [Memory.read_of_wfFrom htail hx, Memory.read_of_wfFrom htail' hx]
        · have hne : a ≠ x := by omega
          simpa only [Memory.read_cons_other hne] using h x
      rw [hvw, ih htail htail' hrest]

/-- Settles O34: the cell written reads as the value, and every other cell is kept. -/
theorem memoryReadsTheLastValueWritten : Obligations.MemoryReadsTheLastValueWritten := by
  refine fun m a a' v hm => ⟨Memory.wf_write hm a v, ?_⟩
  split
  · next ha => rw [ha, Memory.read_write_same hm]
  · next ha => exact Memory.read_write_other m v ha

/-- Settles O35: the canonical form from cell 0 on. -/
theorem equalReadsMeanEqualMemories : Obligations.EqualReadsMeanEqualMemories :=
  fun _ _ hm hm' h => Memory.eq_of_read_eq hm hm' h

/-- Settles O36: a number below `2^31` is its own signed reading. -/
theorem everyCellHasAnAddress : Obligations.EveryCellHasAnAddress := by
  intro c a hc ha
  have hsize : c.memSize ≤ 2 ^ 31 := by
    simp only [Config.wf, Bool.and_eq_true, decide_eq_true_eq] at hc
    exact hc.2
  have haddr : (BitVec.ofNat 32 a).toInt = a := by
    have htoNat : (BitVec.ofNat 32 a).toNat = a := toNat_ofNat_of_le (by omega)
    rw [BitVec.toInt_eq_toNat_of_lt (by omega), htoNat]
  rw [cellOf_of_legal (by omega) (by omega), haddr, Int.toNat_natCast]

/-! ### The four memory instructions -/

/-- Settles O29: the entry, then the address decide between the effect of MEM_SET_ABS and its faults. -/
theorem memSetAbsStoresTheTop : Obligations.MemSetAbsStoresTheTop := by
  refine ⟨fun _ => rfl, fun s addr v rest hos hlo hhi => ?_, fun s addr hpos hbad => ?_,
    fun s addr hempty => exec_of_empty rfl hempty⟩
  · exact exec_of_effect (.memSetAbs addr v rest _ hos (cellOf_of_legal hlo hhi))
  · obtain ⟨v, os, hos⟩ := os_eq_cons_of_sp_pos hpos
    exact exec_of_raises (.memSetAbs addr v os hos (cellOf_of_illegal hbad))

/-- Settles O30: the room, then the address decide between the effect of MEM_GET_ABS and its faults. -/
theorem memGetAbsPushesTheCell : Obligations.MemGetAbsPushesTheCell := by
  refine ⟨fun _ => rfl, fun s addr hroom hlo hhi => ?_, fun s addr hroom hbad => ?_, fun s addr hfull => ?_⟩
  · exact exec_of_effect (.memGetAbs addr _ hroom (cellOf_of_legal hlo hhi))
  · exact exec_of_raises (.memGetAbs addr hroom (cellOf_of_illegal hbad))
  · exact exec_of_raises (.memGetAbsFull addr hfull)

/-- Settles O31: two entries are there, and the upper one's cell decides between the effect and the fault. -/
theorem memSetIndirectStoresTheSecondAtTheTop : Obligations.MemSetIndirectStoresTheSecondAtTheTop := by
  refine ⟨fun _ => rfl, fun s addr v rest hos hlo hhi => ?_, fun s addr v rest hos hbad => ?_, fun s hshort => ?_⟩
  · exact exec_of_effect (.memSetIndirect addr v rest _ hos (cellOf_of_legal hlo hhi))
  · exact exec_of_raises (.memSetIndirect addr v rest hos (cellOf_of_illegal hbad))
  · exact exec_of_raises (.short .memSetIndirect hshort)

/-- Settles O32: one entry is there, and its cell decides between the effect and the fault; no room is asked for. -/
theorem memGetIndirectReplacesTheAddress : Obligations.MemGetIndirectReplacesTheAddress := by
  refine ⟨fun _ => rfl, fun s addr rest hos hlo hhi => ?_, fun s addr rest hos hbad => ?_,
    fun s hempty => exec_of_empty rfl hempty⟩
  · exact exec_of_effect (.memGetIndirect addr rest _ hos (cellOf_of_legal hlo hhi))
  · exact exec_of_raises (.memGetIndirect addr rest hos (cellOf_of_illegal hbad))

/-! ### The memory frame -/

theorem storesTo_memSetAbs {s : State} {addr v : Word} {rest : List Word} (hos : s.os = v :: rest) :
    storesTo (.memSetAbs addr) s = cellOf s.cfg addr := by
  simp only [storesTo, hos]

theorem storesTo_memSetIndirect {s : State} {addr v : Word} {rest : List Word} (hos : s.os = addr :: v :: rest) :
    storesTo .memSetIndirect s = cellOf s.cfg addr := by
  simp only [storesTo, hos]

/-- Of the effects the two stores alone write the memory, at the cell `storesTo` computes. -/
theorem Effect.readCell_eq {s t : State} {i : Instr} (h : Effect s i t) {a : Nat} (ha : storesTo i s ≠ some a) :
    t.readCell a = s.readCell a := by
  cases h with
  | memSetAbs x v os c hos hc =>
    rw [storesTo_memSetAbs hos, hc] at ha
    exact Memory.read_write_other s.mem v fun hac => ha (congrArg some hac.symm)
  | memSetIndirect x v os c hos hc =>
    rw [storesTo_memSetIndirect hos, hc] at ha
    exact Memory.read_write_other s.mem v fun hac => ha (congrArg some hac.symm)
  | _ => rfl

/-- Settles O33: a fault writes no cell, an effect at most the one `storesTo` computes. -/
theorem instructionsStoreOnlyToTheComputedCell : Obligations.InstructionsStoreOnlyToTheComputedCell := by
  refine fun i s t h => ⟨fun a ha => ?_, ?_, ?_⟩
  · obtain ⟨k, -, rfl⟩ | heff := exec_faultOrEffect h
    · rfl
    · exact heff.readCell_eq ha
  · rintro addr v rest a hwf rfl hos hc
    rw [exec_of_effect (.memSetAbs addr v rest a hos hc)] at h
    cases h
    exact ⟨(storesTo_memSetAbs hos).trans hc, Memory.read_write_same hwf a v⟩
  · rintro addr v rest a hwf rfl hos hc
    rw [exec_of_effect (.memSetIndirect addr v rest a hos hc)] at h
    cases h
    exact ⟨(storesTo_memSetIndirect hos).trans hc, Memory.read_write_same hwf a v⟩

end Sys2Proof.Machine

/-! # COMPARE, the or-equal jumps and RETURN (spec/45_compare_branch.md R190, R198, R200, 46_call_return_exit.md R211) -/

namespace Sys2Proof.Machine

/-- Settles O37: COMPARE asks for two entries; equal words are those of equal value. -/
theorem compareWritesTheThreeFlags : Obligations.CompareWritesTheThreeFlags := by
  refine ⟨fun _ => rfl, fun s b a rest hos => ?_, fun s hshort => ?_⟩
  · rw [exec_of_effect (.compare b a rest hos)]
    simp only [compareFlags, BitVec.toInt_inj]
    rfl
  · exact exec_of_raises (.short .compare hshort)

theorem Cond.holds_lessOrEqual_iff (f : Flags) : Cond.lessOrEqual.holds f = true ↔ f.less = true ∨ f.equal = true := by
  simp only [Cond.holds, Bool.or_eq_true]

/-- After a COMPARE `L or E` is `not G`. -/
theorem holds_lessOrEqual_compareFlags (f : Flags) (a b : Word) :
    Cond.lessOrEqual.holds (compareFlags f a b) = true ↔ ¬ b.toInt < a.toInt := by
  simp only [Cond.holds_lessOrEqual_iff, compareFlags, decide_eq_true_eq]
  omega

/-- After a COMPARE `G or E` is `not L`. -/
theorem holds_greaterOrEqual_compareFlags (f : Flags) (a b : Word) :
    Cond.greaterOrEqual.holds (compareFlags f a b) = true ↔ ¬ a.toInt < b.toInt := by
  simp only [Cond.holds_greaterOrEqual_iff, compareFlags, decide_eq_true_eq]
  omega

/-- Settles O40: both jumps are rows of `branchOf`, and COMPARE's flags turn their conditions into comparisons. -/
theorem orEqualJumpsAfterCompare : Obligations.OrEqualJumpsAfterCompare := by
  refine ⟨fun x s => ⟨rfl, ?_⟩, fun x s t b a rest hos h => ?_, fun x s he hl hg => ⟨?_, ?_⟩⟩
  · simp only [exec_branch_eq_ite (i := .jmpIfLessOrEqual x) rfl s, Cond.holds_lessOrEqual_iff]
  · rw [exec_of_effect (.compare b a rest hos)] at h
    cases h
    constructor
    · rw [exec_branch_eq_ite (i := .jmpIfLessOrEqual x) rfl]
      simp only [State.setFlags_flags, holds_lessOrEqual_compareFlags, ite_not]
    · rw [exec_branch_eq_ite (i := .jmpIfGreaterOrEqual x) rfl]
      simp only [State.setFlags_flags, holds_greaterOrEqual_compareFlags, ite_not]
  · exact exec_of_effect (.branchNotTaken _ .lessOrEqual x rfl (by rw [Cond.holds, hl, he]; rfl))
  · exact exec_of_effect (.branchNotTaken _ .greaterOrEqual x rfl (by rw [Cond.holds, hg, he]; rfl))

/-- Settles O42: RETURN takes the top of the call stack, which after a CALL is the index behind it. -/
theorem returnPopsThePcAndUndoesCall : Obligations.ReturnPopsThePcAndUndoesCall := by
  refine ⟨fun _ => rfl, fun s v rest hcs => ?_, fun s hempty => ?_, fun x s t u hroom hcall hcs => ?_⟩
  · exact exec_of_effect (.ret v rest hcs)
  · exact exec_of_raises (.retEmpty (List.length_eq_zero_iff.mp hempty))
  · rw [exec_of_effect (.call x hroom)] at hcall
    cases hcall
    exact exec_of_effect (.ret s.pc s.cs hcs)

end Sys2Proof.Machine

/-! # The program store, `pc`, the call stack and the console stream over a step (spec/10_state.md R24 to R27, R37, R39) -/

namespace Sys2Proof.Machine

/-! ### The program store -/

theorem Effect.prog_eq {s t : State} {i : Instr} (h : Effect s i t) : t.prog = s.prog := by cases h <;> rfl

/-- With another program store an effect is the same and keeps that store: no constructor names it. -/
theorem Effect.withProg {s t : State} {i : Instr} (p : List Record) (h : Effect s i t) :
    Effect { s with prog := p } i { t with prog := p } := by
  cases h with
  -- The other constructors apply as they stand; these are not the first of their instruction.
  | branchNotTaken _ c x hb hc => exact .branchNotTaken i c x hb hc
  | rot3Reverse a b c os hos hr => exact .rot3Reverse a b c os hos hr
  | exitEmpty hos => exact .exitEmpty hos
  | _ => constructor <;> assumption

theorem exec_prog_unreached {s t : State} {i : Instr} (p : List Record) (h : exec i s = .next t) :
    t.prog = s.prog ∧ exec i { s with prog := p } = .next { t with prog := p } := by
  obtain ⟨k, hk, rfl⟩ | heff := exec_faultOrEffect h
  · have hk' : Raises { s with prog := p } i k := hk.of_same_stacks rfl rfl rfl
    exact ⟨rfl, exec_of_raises hk'⟩
  · exact ⟨heff.prog_eq, exec_of_effect (heff.withProg p)⟩

theorem step_prog_eq {s t : State} (h : step s = .next t) : t.prog = s.prog := by
  obtain rfl | ⟨k, rfl⟩ | ⟨r, i, -, -, heff⟩ := step_halt_fault_or_effect h
  · rfl
  · rfl
  · exact heff.prog_eq

/-- Settles O48: no instruction reaches the store, so no step writes it and no run does. -/
theorem programStoreIsReadOnlyByTheFetch : Obligations.ProgramStoreIsReadOnlyByTheFetch := by
  refine ⟨fun i s t p h => exec_prog_unreached p h, fun s t h => ?_⟩
  exact h.keeps (P := fun u => u.prog = s.prog) (fun _ _ hstep hu => (step_prog_eq hstep).trans hu) rfl

/-! ### `pc` -/

/-- A jump or CALL with operand `x`. -/
def TransfersTo (i : Instr) (x : Word) : Prop :=
  i = .jmp x ∨ i = .jmpIfCarry x ∨ i = .jmpIfNotCarry x ∨ i = .jmpIfEqual x ∨ i = .jmpIfNotEqual x ∨
    i = .jmpIfLess x ∨ i = .jmpIfLessOrEqual x ∨ i = .jmpIfGreater x ∨ i = .jmpIfGreaterOrEqual x ∨ i = .call x

theorem transfersTo_of_branchOf {i : Instr} {c : Cond} {x : Word} (h : branchOf i = some (c, x)) : TransfersTo i x := by
  cases i <;> cases h <;> simp [TransfersTo]

theorem transfersTo_call (x : Word) : TransfersTo (.call x) x := by simp [TransfersTo]

/-- A completed instruction keeps `pc`, or writes its operand or the popped call-stack entry to it. -/
theorem Effect.pc_cases {s t : State} {i : Instr} (h : Effect s i t) :
    t.pc = s.pc ∨ (∃ x, TransfersTo i x ∧ t.pc = x) ∨ (i = .ret ∧ s.cs.head? = some t.pc) := by
  cases h with
  | branchTaken _ c x hi => exact .inr (.inl ⟨x, transfersTo_of_branchOf hi, rfl⟩)
  | call x => exact .inr (.inl ⟨x, transfersTo_call x, rfl⟩)
  | ret v cs hcs => exact .inr (.inr ⟨rfl, by rw [hcs]; rfl⟩)
  | _ => exact .inl rfl

/-- A record was fetched, so `pc` is below `K`, which is a `u32`. -/
theorem toNat_pc_add_one {s : State} {r : Record} (hs : s.Inv) (hf : fetch s = some r) :
    (s.pc + 1).toNat = s.pc.toNat + 1 := by
  obtain ⟨hlt, -⟩ := List.getElem?_eq_some_iff.mp hf
  have hK : s.prog.length ≤ 2 ^ 32 - 1 := hs.progLen_u32
  rw [BitVec.toNat_add]
  exact Nat.mod_eq_of_lt (by change s.pc.toNat + 1 < 2 ^ 32; omega)

/-- Settles O49: the step executes with `pc` incremented, and an effect keeps it or transfers control. -/
theorem pcIsTheNextIndexUnlessAControlTransferWroteIt :
    Obligations.PcIsTheNextIndexUnlessAControlTransferWroteIt := by
  refine ⟨fun s t r i hf hd h => ?_, fun s r hs hf => toNat_pc_add_one hs hf⟩
  obtain ⟨k, -, rfl⟩ | heff := exec_faultOrEffect (exec_of_step h hf hd)
  · exact .inl rfl
  · exact heff.pc_cases

/-! ### The call stack -/

/-- Settles O50: of the effects CALL's and RETURN's alone change the call stack. -/
theorem callStackChangesOnlyByCallAndReturn : Obligations.CallStackChangesOnlyByCallAndReturn := by
  intro s t h
  obtain rfl | ⟨k, rfl⟩ | ⟨r, i, hf, hd, heff⟩ := step_halt_fault_or_effect h
  · exact .inl rfl
  · exact .inl rfl
  · cases heff with
    | call x => exact .inr (.inl ⟨r, x, hf, hd, rfl, rfl⟩)
    | ret v cs hcs => exact .inr (.inr ⟨r, hf, hd, hcs⟩)
    | _ => exact .inl rfl

/-! ### The console stream -/

/-- The three instructions of 43_output.md. -/
def OutputInstruction (i : Instr) : Prop := i = .printNum ∨ i = .printChar ∨ i = .dump

/-- With another stream the effect of an instruction without output is the same and keeps that stream. -/
theorem Effect.withOut {s t : State} {i : Instr} (o : List ConsoleEvent) (h : Effect s i t)
    (hi : ¬ OutputInstruction i) : t.out = s.out ∧ Effect { s with out := o } i { t with out := o } := by
  cases h with
  | printNum => exact absurd (.inl rfl) hi
  | printChar => exact absurd (.inr (.inl rfl)) hi
  | dump => exact absurd (.inr (.inr rfl)) hi
  -- The other constructors apply as they stand; these are not the first of their instruction.
  | branchNotTaken _ c x hb hc => exact ⟨rfl, .branchNotTaken i c x hb hc⟩
  | rot3Reverse a b c os hos hr => exact ⟨rfl, .rot3Reverse a b c os hos hr⟩
  | exitEmpty hos => exact ⟨rfl, .exitEmpty hos⟩
  | _ => refine ⟨rfl, ?_⟩; constructor <;> assumption

/-- An output instruction that completes appends one event, and the same one to any stream. -/
theorem Effect.emits {s t : State} {i : Instr} (h : Effect s i t) (hi : OutputInstruction i) :
    ∃ e, t.out = s.out ++ [e] ∧ ∀ o, Effect { s with out := o } i { t with out := o ++ [e] } := by
  obtain rfl | rfl | rfl := hi
  · cases h with
    | printNum v os hos => exact ⟨_, rfl, fun _ => .printNum v os hos⟩
    | alu _ _ _ _ _ hi | branchTaken _ _ _ hi | branchNotTaken _ _ _ hi => cases hi
  · cases h with
    | printChar v os hos => exact ⟨_, rfl, fun _ => .printChar v os hos⟩
    | alu _ _ _ _ _ hi | branchTaken _ _ _ hi | branchNotTaken _ _ _ hi => cases hi
  · cases h with
    | dump => exact ⟨_, rfl, fun _ => .dump⟩
    | alu _ _ _ _ _ hi | branchTaken _ _ _ hi | branchNotTaken _ _ _ hi => cases hi

/-- An instruction appends nothing, or one event as an output instruction, and does the same on any stream. -/
theorem exec_appends {s t : State} {i : Instr} (h : exec i s = .next t) :
    ∃ es, t.out = s.out ++ es ∧ (es = [] ∨ ∃ e, es = [e] ∧ OutputInstruction i) ∧
      ∀ o, exec i { s with out := o } = .next { t with out := o ++ es } := by
  obtain ⟨k, hk, rfl⟩ | heff := exec_faultOrEffect h
  · refine ⟨[], (List.append_nil _).symm, .inl rfl, fun o => ?_⟩
    have hk' : Raises { s with out := o } i k := hk.of_same_stacks rfl rfl rfl
    rw [List.append_nil]
    exact exec_of_raises hk'
  · by_cases hi : OutputInstruction i
    · obtain ⟨e, hout, hany⟩ := heff.emits hi
      exact ⟨[e], hout, .inr ⟨e, rfl, hi⟩, fun o => exec_of_effect (hany o)⟩
    · refine ⟨[], ?_, .inl rfl, fun o => ?_⟩
      · rw [List.append_nil, (heff.withOut [] hi).1]
      · rw [List.append_nil]
        exact exec_of_effect (heff.withOut o hi).2

/-- Settles O51: a halt and an illegal opcode keep any stream, and an instruction appends the same to any. -/
theorem consoleStreamIsAppendOnlyAndNeverRead : Obligations.ConsoleStreamIsAppendOnlyAndNeverRead := by
  intro s t h
  obtain ⟨hr, ⟨hf, rfl⟩ | ⟨r, e, hf, hd, rfl⟩ | ⟨r, i, hf, hd, hx⟩⟩ := step_cases h
  · refine ⟨[], (List.append_nil _).symm, .inl rfl, fun o => ?_⟩
    rw [List.append_nil]
    exact step_of_fetch_none (s := { s with out := o }) hr hf
  · refine ⟨[], (List.append_nil _).symm, .inl rfl, fun o => ?_⟩
    rw [List.append_nil]
    exact step_of_decode_error (s := { s with out := o }) hr hf hd
  · obtain ⟨es, hout, hes, hany⟩ := exec_appends hx
    refine ⟨es, hout, ?_, fun o => ?_⟩
    · obtain hnil | ⟨e, he, hi⟩ := hes
      · exact .inl hnil
      · exact .inr ⟨r, e, hf, he, by simpa [hd, OutputInstruction] using hi⟩
    · rw [step_of_decode_ok (s := { s with out := o }) hr hf hd]
      exact hany o

end Sys2Proof.Machine

/-! # The loader (spec/30_encoding.md R77 to R82)

The bytes the loader accepts are the images of the programs that fit, each with up to three trailing bytes
(`loadImage_eq_ok_iff`). What it accepts and which bytes it reads are then facts about `imageBytes`. -/

namespace Sys2Proof

/-! ### Fields and records in a byte sequence -/

theorem length_wordBytes (w : Word) : (wordBytes w).length = 4 := rfl

theorem wordBytes_wordOfBytes (b0 b1 b2 b3 : Byte) : wordBytes (wordOfBytes b0 b1 b2 b3) = [b0, b1, b2, b3] := by
  have h0 : (wordOfBytes b0 b1 b2 b3).extractLsb' 0 8 = b0 := BitVec.extractLsb'_append_eq_right
  have h1 : (wordOfBytes b0 b1 b2 b3).extractLsb' 8 8 = b1 :=
    (BitVec.extractLsb'_append_eq_of_le (by decide)).trans BitVec.extractLsb'_append_eq_right
  have h2 : (wordOfBytes b0 b1 b2 b3).extractLsb' 16 8 = b2 :=
    ((BitVec.extractLsb'_append_eq_of_le (by decide)).trans (BitVec.extractLsb'_append_eq_of_le (by decide))).trans
      BitVec.extractLsb'_append_eq_right
  have h3 : (wordOfBytes b0 b1 b2 b3).extractLsb' 24 8 = b3 :=
    ((BitVec.extractLsb'_append_eq_of_le (by decide)).trans (BitVec.extractLsb'_append_eq_of_le (by decide))).trans
      BitVec.extractLsb'_append_eq_left
  rw [wordBytes, h0, h1, h2, h3]

/-- `recordOfBytes` undoes `recordBytes` and reads nothing else. -/
theorem recordOfBytes_eq_some_iff {bytes rest : List Byte} {r : Record} :
    recordOfBytes bytes = some (r, rest) ↔ bytes = recordBytes r ++ rest := by
  constructor
  · intro h
    unfold recordOfBytes at h
    split at h <;> cases h
    simp only [recordBytes, wordBytes_wordOfBytes, List.cons_append, List.nil_append]
  · rintro rfl
    exact recordOfBytes_recordBytes r rest

/-- The first eight bytes of a sequence are some record's. -/
theorem exists_recordBytes_append {bytes : List Byte} (h : 8 ≤ bytes.length) :
    ∃ r rest, bytes = recordBytes r ++ rest := by
  match bytes, h with
  | b0 :: b1 :: b2 :: b3 :: b4 :: b5 :: b6 :: b7 :: rest, _ => exact ⟨_, rest, recordOfBytes_eq_some_iff.mp rfl⟩

/-- The little-endian field at an offset. -/
def wordAt (bytes : List Byte) (o : Nat) : Word :=
  wordOfBytes (bytes.getD o 0) (bytes.getD (o + 1) 0) (bytes.getD (o + 2) 0) (bytes.getD (o + 3) 0)

/-- The field at an offset is the one whose bytes stand there. -/
theorem wordAt_of_eq_append {bytes before after : List Byte} {w : Word} {o : Nat} (ho : before.length = o)
    (h : bytes = before ++ (wordBytes w ++ after)) : wordAt bytes o = w := by
  subst ho h
  simpa [wordAt, wordBytes, List.getD_append_right] using wordOfBytes_extract w

/-- The record at an offset: its opcode field there, its operand field four bytes further (R70, R71). -/
theorem record_of_eq_append {bytes before after : List Byte} {r : Record} {o : Nat} (ho : before.length = o)
    (h : bytes = before ++ (recordBytes r ++ after)) : r = ⟨wordAt bytes o, wordAt bytes (o + 4)⟩ := by
  rw [recordBytes, List.append_assoc] at h
  have hopcode : wordAt bytes o = r.opcode := wordAt_of_eq_append ho h
  have hoperand : wordAt bytes (o + 4) = r.operand := by
    rw [← List.append_assoc] at h
    exact wordAt_of_eq_append (by rw [List.length_append, length_wordBytes, ho]) h
  rw [hopcode, hoperand]

end Sys2Proof

namespace Sys2Proof.Machine

/-! ### The parts of an image -/

/-- The concatenation of the `n`-byte encodings of a list has `n` bytes for each element. -/
theorem length_flatMap_of_length_eq {α : Type} {f : α → List Byte} {n : Nat} (hf : ∀ a, (f a).length = n)
    (l : List α) : (l.flatMap f).length = n * l.length := by
  induction l with
  | nil => rfl
  | cons a l ih => simp only [List.flatMap_cons, List.length_append, hf, ih, List.length_cons]; ring

theorem length_flatMap_recordBytes (rs : List Record) : (rs.flatMap recordBytes).length = 8 * rs.length :=
  length_flatMap_of_length_eq length_recordBytes rs

theorem length_flatMap_wordBytes (ws : List Word) : (ws.flatMap wordBytes).length = 4 * ws.length :=
  length_flatMap_of_length_eq length_wordBytes ws

/-- A concatenation is what comes before the element at an index, that element's part, and what comes after. -/
theorem flatMap_eq_append_of_lt {α β : Type} (f : α → List β) {l : List α} {i : Nat} (h : i < l.length) :
    l.flatMap f = (l.take i).flatMap f ++ (f l[i] ++ (l.drop (i + 1)).flatMap f) := by
  rw [← List.flatMap_cons, ← List.drop_eq_getElem_cons h, ← List.flatMap_append, List.take_append_drop]

/-- Taking `k` records undoes writing `k` records one after another. -/
theorem takeRecords_eq_some_iff {k : Nat} {bytes rest : List Byte} {rs : List Record} :
    takeRecords k bytes = some (rs, rest) ↔ rs.length = k ∧ bytes = rs.flatMap recordBytes ++ rest := by
  induction k generalizing bytes rs with
  | zero =>
    rw [List.length_eq_zero_iff]
    constructor
    · intro h
      cases h
      exact ⟨rfl, rfl⟩
    · rintro ⟨rfl, rfl⟩
      rfl
  | succ k ih =>
    constructor
    · intro h
      rw [takeRecords] at h
      split at h
      · cases h
      · next r rest₁ hr =>
        split at h
        · cases h
        · next rs' rest₂ hrs =>
          cases h
          obtain ⟨hlen, rfl⟩ := ih.mp hrs
          obtain rfl := recordOfBytes_eq_some_iff.mp hr
          simp [hlen]
    · rintro ⟨hlen, rfl⟩
      cases rs with
      | nil => cases hlen
      | cons r rs =>
        have hrs := ih.mpr ⟨Nat.succ.inj hlen, rfl⟩
        rw [List.flatMap_cons, List.append_assoc, takeRecords, recordOfBytes_recordBytes]
        simp only [hrs]

/-- A sequence with enough bytes begins with any number of records. -/
theorem exists_records_append {k : Nat} {bytes : List Byte} (h : 8 * k ≤ bytes.length) :
    ∃ (rs : List Record) (rest : List Byte), rs.length = k ∧ bytes = rs.flatMap recordBytes ++ rest := by
  induction k generalizing bytes with
  | zero => exact ⟨[], bytes, rfl, rfl⟩
  | succ k ih =>
    obtain ⟨r, rest₁, rfl⟩ := exists_recordBytes_append (show 8 ≤ bytes.length by omega)
    rw [List.length_append, length_recordBytes] at h
    obtain ⟨rs, rest, rfl, rfl⟩ := ih (bytes := rest₁) (by omega)
    exact ⟨r :: rs, rest, rfl, by simp⟩

/-- The words of a sequence are those written in it, with up to three bytes after them. -/
theorem eq_wordsOfBytes_append (bytes : List Byte) :
    ∃ tail : List Byte, tail.length < 4 ∧ bytes = (wordsOfBytes bytes).flatMap wordBytes ++ tail := by
  induction bytes using wordsOfBytes.induct with
  | case1 b0 b1 b2 b3 rest ih =>
    obtain ⟨tail, hlen, htail⟩ := ih
    refine ⟨tail, hlen, ?_⟩
    rw [wordsOfBytes, List.flatMap_cons, wordBytes_wordOfBytes, List.append_assoc, ← htail]
    rfl
  | case2 bytes hshort =>
    match bytes, hshort with
    | [], _ | [_], _ | [_, _], _ | [_, _, _], _ => exact ⟨_, by simp, rfl⟩
    | b0 :: b1 :: b2 :: b3 :: rest, hshort => exact absurd rfl (hshort b0 b1 b2 b3 rest)

theorem wordsOfBytes_flatMap_append (ws : List Word) {tail : List Byte} (h : tail.length < 4) :
    wordsOfBytes (ws.flatMap wordBytes ++ tail) = ws := by
  induction ws with
  | nil =>
    match tail, h with
    | [], _ | [_], _ | [_, _], _ | [_, _, _], _ => rfl
  | cons w ws ih =>
    rw [List.flatMap_cons, List.append_assoc]
    simp only [wordBytes, List.cons_append, List.nil_append, wordsOfBytes, wordOfBytes_extract]
    exact congrArg _ ih

/-! ### The accepted images -/

theorem imageBytes_append (p : Loaded) (tail : List Byte) :
    imageBytes p ++ tail = wordBytes magic ++ (wordBytes (BitVec.ofNat 32 p.prog.length) ++
      (p.prog.flatMap recordBytes ++ (p.image.flatMap wordBytes ++ tail))) := by
  simp only [imageBytes, List.append_assoc]

/-- Behind the magic and `K` the loader takes the records, then the words. -/
theorem loadImage_of_header_eq_ok_iff {c : Config} {k : Word} {body : List Byte} {p : Loaded} :
    loadImage c (wordBytes magic ++ (wordBytes k ++ body)) = .ok p ↔
      ∃ rest, takeRecords k.toNat body = some (p.prog, rest) ∧ wordsOfBytes rest = p.image ∧
        p.image.length ≤ c.memSize := by
  simp only [wordBytes, List.cons_append, List.nil_append, loadImage, wordOfBytes_extract, ne_eq, not_true,
    if_false]
  constructor
  · intro h
    split at h
    · cases h
    · next prog rest hprog =>
      split at h <;> cases h
      next hfits => exact ⟨rest, hprog, rfl, not_lt.mp hfits⟩
  · rintro ⟨rest, hprog, himage, hfits⟩
    simp only [hprog, himage, if_neg (not_lt.mpr hfits)]

/-- An accepted image has the magic and a complete header. -/
theorem header_of_loadImage {c : Config} {bytes : List Byte} {p : Loaded} (h : loadImage c bytes = .ok p) :
    ∃ (k : Word) (body : List Byte), bytes = wordBytes magic ++ (wordBytes k ++ body) := by
  unfold loadImage at h
  split at h
  · next m0 m1 m2 m3 k0 k1 k2 k3 body =>
    split at h
    · cases h
    · next hm =>
      refine ⟨wordOfBytes k0 k1 k2 k3, body, ?_⟩
      rw [← not_not.mp hm, wordBytes_wordOfBytes, wordBytes_wordOfBytes]
      rfl
  · split at h <;> cases h
  · cases h

theorem loadFits_iff {c : Config} {prog : List Record} {image : List Word} :
    loadFits c prog image = true ↔ prog.length ≤ 2 ^ 32 - 1 ∧ image.length ≤ c.memSize := by
  simp only [loadFits, Bool.and_eq_true, decide_eq_true_eq]

/-- The loader accepts the images of the programs that fit, with up to three trailing bytes, and no other bytes. -/
theorem loadImage_eq_ok_iff {c : Config} {bytes : List Byte} {p : Loaded} :
    loadImage c bytes = .ok p ↔
      loadFits c p.prog p.image = true ∧ ∃ tail : List Byte, tail.length < 4 ∧ bytes = imageBytes p ++ tail := by
  constructor
  · intro h
    obtain ⟨k, body, rfl⟩ := header_of_loadImage h
    obtain ⟨rest, hprog, himage, hfits⟩ := loadImage_of_header_eq_ok_iff.mp h
    obtain ⟨hlen, rfl⟩ := takeRecords_eq_some_iff.mp hprog
    obtain ⟨tail, htail, hrest⟩ := eq_wordsOfBytes_append rest
    rw [himage] at hrest
    have hk : BitVec.ofNat 32 p.prog.length = k := by rw [hlen, BitVec.ofNat_toNat, BitVec.setWidth_eq]
    have hu32 : p.prog.length ≤ 2 ^ 32 - 1 := hlen ▸ Nat.le_sub_one_of_lt k.isLt
    exact ⟨loadFits_iff.mpr ⟨hu32, hfits⟩, tail, htail, by rw [imageBytes_append, hk, ← hrest]⟩
  · rintro ⟨hfits, tail, htail, rfl⟩
    obtain ⟨hu32, himage⟩ := loadFits_iff.mp hfits
    rw [imageBytes_append, loadImage_of_header_eq_ok_iff]
    exact ⟨_, takeRecords_eq_some_iff.mpr ⟨(toNat_ofNat_of_le hu32).symm, rfl⟩,
      wordsOfBytes_flatMap_append p.image htail, himage⟩

/-- Settles O56: the image of a program that fits is one the loader accepts, and as that program. -/
theorem imageOfAProgramLoadsBack : Obligations.ImageOfAProgramLoadsBack := by
  intro c p tail hfits htail
  exact loadImage_eq_ok_iff.mpr ⟨hfits, tail, htail, rfl⟩

/-! ### Offsets in an accepted image -/

section
variable (p : Loaded) (tail : List Byte)

theorem length_imageBytes : (imageBytes p).length = 8 + 8 * p.prog.length + 4 * p.image.length := by
  simp only [imageBytes, List.length_append, length_wordBytes, length_flatMap_recordBytes, length_flatMap_wordBytes]

theorem take_imageBytes_append : (imageBytes p ++ tail).take 4 = [0x43#8, 0x53#8, 0x56#8, 0x00#8] := by
  rw [imageBytes_append]
  rfl

/-- R79: `K` stands at offset 4. -/
theorem wordAt_progLen : wordAt (imageBytes p ++ tail) 4 = BitVec.ofNat 32 p.prog.length := by
  rw [imageBytes_append]
  exact wordAt_of_eq_append (length_wordBytes magic) rfl

/-- R77 and R79: record `i` stands at offset `8 + 8*i`. -/
theorem record_eq_wordAt {i : Nat} (h : i < p.prog.length) :
    p.prog[i] = ⟨wordAt (imageBytes p ++ tail) (8 + 8 * i), wordAt (imageBytes p ++ tail) (12 + 8 * i)⟩ := by
  have hbefore : (wordBytes magic ++ wordBytes (BitVec.ofNat 32 p.prog.length) ++
      (p.prog.take i).flatMap recordBytes).length = 8 + 8 * i := by
    simp only [List.length_append, length_wordBytes, length_flatMap_recordBytes, List.length_take_of_le h.le]
  rw [show 12 + 8 * i = 8 + 8 * i + 4 by omega]
  refine record_of_eq_append (after := (p.prog.drop (i + 1)).flatMap recordBytes ++
    (p.image.flatMap wordBytes ++ tail)) hbefore ?_
  rw [imageBytes_append, flatMap_eq_append_of_lt recordBytes h]
  simp only [List.append_assoc]

/-- R79: preload word `j` stands at offset `8 + 8*K + 4*j`. -/
theorem word_eq_wordAt {j : Nat} (h : j < p.image.length) :
    p.image[j] = wordAt (imageBytes p ++ tail) (8 + 8 * p.prog.length + 4 * j) := by
  have hbefore : (wordBytes magic ++ wordBytes (BitVec.ofNat 32 p.prog.length) ++ p.prog.flatMap recordBytes ++
      (p.image.take j).flatMap wordBytes).length = 8 + 8 * p.prog.length + 4 * j := by
    simp only [List.length_append, length_wordBytes, length_flatMap_recordBytes, length_flatMap_wordBytes,
      List.length_take_of_le h.le]
  refine (wordAt_of_eq_append (after := (p.image.drop (j + 1)).flatMap wordBytes ++ tail) hbefore ?_).symm
  rw [imageBytes_append, flatMap_eq_append_of_lt wordBytes h]
  simp only [List.append_assoc]

end

/-- The preload has the whole words behind the records (R79). -/
theorem length_image_of_accepted (p : Loaded) {tail : List Byte} (htail : tail.length < 4) :
    p.image.length = ((imageBytes p ++ tail).length - 8 - 8 * p.prog.length) / 4 := by
  rw [List.length_append, length_imageBytes]
  omega

theorem toNat_wordAt_progLen {c : Config} {p : Loaded} (hfits : loadFits c p.prog p.image = true) (tail : List Byte) :
    (wordAt (imageBytes p ++ tail) 4).toNat = p.prog.length := by
  rw [wordAt_progLen, toNat_ofNat_of_le (loadFits_iff.mp hfits).1]

/-- An image that passes the loader's checks is the image of some program and preload. -/
theorem exists_imageBytes_append {bytes : List Byte} (hmagic : bytes.take 4 = [0x43#8, 0x53#8, 0x56#8, 0x00#8])
    (hheader : 8 ≤ bytes.length) (hrecords : 8 + 8 * (wordAt bytes 4).toNat ≤ bytes.length) :
    ∃ (p : Loaded) (tail : List Byte), p.prog.length = (wordAt bytes 4).toNat ∧ tail.length < 4 ∧
      bytes = imageBytes p ++ tail := by
  match bytes, hheader with
  | m0 :: m1 :: m2 :: m3 :: k0 :: k1 :: k2 :: k3 :: body, _ =>
    obtain ⟨rfl, rfl, rfl, rfl⟩ : m0 = 0x43#8 ∧ m1 = 0x53#8 ∧ m2 = 0x56#8 ∧ m3 = 0x00#8 := by simpa using hmagic
    have hk : wordAt (0x43#8 :: 0x53#8 :: 0x56#8 :: 0x00#8 :: k0 :: k1 :: k2 :: k3 :: body) 4 =
      wordOfBytes k0 k1 k2 k3 := rfl
    rw [hk] at hrecords ⊢
    obtain ⟨prog, rest, hlen, rfl⟩ := exists_records_append (k := (wordOfBytes k0 k1 k2 k3).toNat) (bytes := body)
      (by simp only [List.length_cons] at hrecords; omega)
    obtain ⟨tail, htail, hrest⟩ := eq_wordsOfBytes_append rest
    refine ⟨⟨prog, wordsOfBytes rest⟩, tail, hlen, htail, ?_⟩
    rw [imageBytes_append, ← hrest]
    simp only [hlen, BitVec.ofNat_toNat, BitVec.setWidth_eq, wordBytes_wordOfBytes]
    rfl

/-- Settles O57: an accepted image is the image of a program that fits, which passes the checks; an image that passes
them is one, and its lengths are those the loader bounds. -/
theorem loaderAcceptsExactlyTheCompleteImages : Obligations.LoaderAcceptsExactlyTheCompleteImages := by
  intro c bytes k
  constructor
  · rintro ⟨p, h⟩
    obtain ⟨hfits, tail, htail, rfl⟩ := loadImage_eq_ok_iff.mp h
    have hk : k = p.prog.length := toNat_wordAt_progLen hfits tail
    have hlen : 8 + 8 * p.prog.length ≤ (imageBytes p ++ tail).length := by
      rw [List.length_append, length_imageBytes]
      omega
    rw [hk, ← length_image_of_accepted p htail]
    exact ⟨take_imageBytes_append p tail, by omega, hlen, (loadFits_iff.mp hfits).2⟩
  · rintro ⟨hmagic, hheader, hrecords, hpreload⟩
    obtain ⟨p, tail, hk, htail, rfl⟩ := exists_imageBytes_append hmagic hheader hrecords
    rw [show k = p.prog.length from hk.symm, ← length_image_of_accepted p htail] at hpreload
    have hu32 : p.prog.length ≤ 2 ^ 32 - 1 := hk ▸ Nat.le_sub_one_of_lt (BitVec.isLt _)
    exact ⟨p, loadImage_eq_ok_iff.mpr ⟨loadFits_iff.mpr ⟨hu32, hpreload⟩, tail, htail, rfl⟩⟩

/-- Settles O58: an accepted image is the image of its program, in which each part stands at its offset. -/
theorem loadedRecordsAndWordsComeFromTheirOffsets : Obligations.LoadedRecordsAndWordsComeFromTheirOffsets := by
  intro c bytes p h fieldAt k
  obtain ⟨hfits, tail, htail, rfl⟩ := loadImage_eq_ok_iff.mp h
  have hk : k = p.prog.length := toNat_wordAt_progLen hfits tail
  rw [hk]
  refine ⟨rfl, fun i hi => ?_, length_image_of_accepted p htail, fun j hj => ?_⟩
  · rw [List.getElem?_eq_getElem hi]
    exact congrArg some (record_eq_wordAt p tail hi)
  · rw [List.getElem?_eq_getElem hj]
    exact congrArg some (word_eq_wordAt p tail hj)

end Sys2Proof.Machine

/-! # The invariant and the boot (spec/10_state.md section 11, 70_reset_and_hazards.md R250) -/

namespace Sys2Proof.Machine

/-! ### What an effect leaves of the invariant's parts -/

section
variable {s t : State} {i : Instr}

theorem Effect.diag_eq (h : Effect s i t) : t.diag = s.diag := by cases h <;> rfl

/-- The two stores keep the canonical form of the memory, and no other effect writes a cell. -/
theorem Effect.mem_wf (h : Effect s i t) (hs : s.mem.wf = true) : t.mem.wf = true := by
  cases h with
  | memSetAbs _ v _ c | memSetIndirect _ v _ c => exact Memory.wf_write hs c v
  | _ => exact hs

/-- The two stores have checked the address, so the cell they list exists. -/
theorem Effect.mem_within (h : Effect s i t) (hs : s.mem.within s.cfg.memSize = true) :
    t.mem.within s.cfg.memSize = true := by
  cases h with
  | memSetAbs _ v _ _ _ hc | memSetIndirect _ v _ _ _ hc => exact Memory.within_write hs (cellOf_lt hc) v
  | _ => exact hs

theorem compareFlags_exclusive (f : Flags) (a b : Word) : (compareFlags f a b).exclusive = true := by
  obtain ⟨he, hl, hg⟩ | ⟨he, hl, hg⟩ | ⟨he, hl, hg⟩ := compareFlags_exactly_one f a b <;>
    simp only [Flags.exclusive, he, hl, hg] <;> rfl

theorem Effect.flags_exclusive (h : Effect s i t) (hs : s.flags.exclusive = true) : t.flags.exclusive = true := by
  cases h with
  | compare b a => exact compareFlags_exclusive s.flags a b
  | _ => exact hs

end

/-- R40: without a fault the diagnostic stream is empty. -/
theorem diagOk_iff_of_faultFree {s : State} (h : s.faultFree = true) : s.diagOk = true ↔ s.diag = [] := by
  unfold State.diagOk
  split
  · next k hk => cases h.symm.trans (not_faultFree_of_haltedOnFault hk)
  · exact decide_eq_true_iff

/-! ### The three ways a step ends keep the invariant -/

section
variable {s t : State} {i : Instr}

theorem State.Inv.diag_eq_nil (h : s.Inv) (hrun : s.runState = .running) : s.diag = [] :=
  (diagOk_iff_of_faultFree (faultFree_of_running hrun)).mp h.diag_ok

theorem State.Inv.haltNormally (h : s.Inv) (hrun : s.runState = .running) : (haltNormally s).Inv :=
  { h with diag_ok := (diagOk_iff_of_faultFree rfl).mpr (h.diag_eq_nil hrun) }

/-- A running core has no report yet, so the fault's is the only one. -/
theorem State.Inv.takeFault (h : s.Inv) (hrun : s.runState = .running) (k : FaultKind) : (takeFault k s).Inv := by
  refine { h with diag_ok := decide_eq_true ?_ }
  rw [takeFault_diag, h.diag_eq_nil hrun]
  rfl

theorem State.Inv.advance (h : s.Inv) : s.advance.Inv := { h with }

theorem State.Inv.effect (h : s.Inv) (hrun : s.runState = .running) (heff : Effect s i t) : t.Inv where
  cfg_wf := heff.cfg_eq ▸ h.cfg_wf
  progLen_u32 := (congrArg List.length heff.prog_eq).trans_le h.progLen_u32
  sp_le := heff.cfg_eq ▸ heff.sp_le h.sp_le
  csp_le := heff.cfg_eq ▸ heff.csp_le h.csp_le
  mem_wf := heff.mem_wf h.mem_wf
  mem_within := heff.cfg_eq ▸ heff.mem_within h.mem_within
  flags_exclusive := heff.flags_exclusive h.flags_exclusive
  diag_ok := (diagOk_iff_of_faultFree (heff.faultFree (faultFree_of_running hrun))).mpr
    (heff.diag_eq.trans (h.diag_eq_nil hrun))

end

/-- Settles O52: a step halts normally, takes a fault or has an effect, and each keeps the invariant. -/
theorem everyStepKeepsTheInvariant : Obligations.EveryStepKeepsTheInvariant := by
  intro s t hs h
  have hrun := running_of_step h
  obtain rfl | ⟨k, rfl⟩ | ⟨r, i, -, -, heff⟩ := step_halt_fault_or_effect h
  · exact hs.haltNormally hrun
  · exact hs.advance.takeFault hrun k
  · exact hs.advance.effect hrun heff

/-! ### The boot -/

theorem bootState_inv {c : Config} {p : Loaded} (hc : c.wf = true) (hfits : loadFits c p.prog p.image = true) :
    (bootState c p).Inv where
  cfg_wf := hc
  progLen_u32 := (loadFits_iff.mp hfits).1
  sp_le := Nat.zero_le _
  csp_le := Nat.zero_le _
  mem_wf := Memory.wf_ofImage p.image
  mem_within := Memory.within_ofImage (loadFits_iff.mp hfits).2
  flags_exclusive := rfl
  diag_ok := rfl

theorem bootState_standard_empty : bootState Config.standard ⟨[], []⟩ = State.reset := rfl

/-- The machine boots an image that the loader accepts, and no other. -/
theorem loadImage_of_boot {c : Config} {bytes : List Byte} {s : State} (h : boot c bytes = .ok s) :
    ∃ p, loadImage c bytes = .ok p ∧ s = bootState c p := by
  unfold boot at h
  split at h <;> cases h
  next p hp => exact ⟨p, hp, rfl⟩

/-- Settles O53: the reset state is the boot of no program with the default parameters. -/
theorem resetStateMeetsTheInvariant : Obligations.ResetStateMeetsTheInvariant := by
  unfold Obligations.ResetStateMeetsTheInvariant
  rw [← bootState_standard_empty]
  exact bootState_inv (by decide) (by decide)

/-- Settles O54: what the loader accepts fits, and the boot of a program that fits meets the invariant. -/
theorem acceptedImageBootsIntoAGoodRunningState : Obligations.AcceptedImageBootsIntoAGoodRunningState := by
  intro c bytes s hc h
  obtain ⟨p, hp, rfl⟩ := loadImage_of_boot h
  obtain ⟨hfits, -⟩ := loadImage_eq_ok_iff.mp hp
  exact ⟨bootState_inv hc hfits, rfl, rfl⟩

/-- Settles O59: every component but the program, the parameters and the memory is the reset state's. -/
theorem bootStateHoldsTheResetValues : Obligations.BootStateHoldsTheResetValues := by
  intro c p
  exact ⟨rfl, rfl, rfl, rfl, rfl, rfl, rfl, rfl, rfl, bootState_readCell c p, bootState_standard_empty⟩

end Sys2Proof.Machine
